-- ==== Sys2Proof/Word.lean ====
section
/-! DEFINITION. The value types of the spec's notation (spec/00_scope.md R7). -/

namespace Sys2Proof

/-- R7: a byte is 8 bits. -/
abbrev Byte := BitVec 8

/-- R7: a finite sequence of bytes, offset 0 first. -/
abbrev Bytes := List Byte

/-- R7: an unsigned 16-bit integer. -/
abbrev U16 := BitVec 16

/-- R7, R73: a signed 32-bit integer as its two's complement bit pattern; `toInt` is its value.
The three registers, the header numbers and the keys of `in_flight` are of this type (R21). -/
abbrev I32 := BitVec 32

/-- R37: the largest value an I32 holds. -/
abbrev i32Max : Int := 2147483647

end Sys2Proof
end

