-- ==== Sys2Proof/Config.lean ====
section
/-! DEFINITION. The open parameters of the block (spec/00_scope.md R5) and the ones the machine after
reset is constructed with. The fixed rows of R5 (header length, fill values, flag bytes) stand in
Decode.lean and Machine/Operands.lean. -/

namespace Sys2Proof

/-- R5, R30: the construction arguments. They are fixed at construction and no event writes them. -/
structure Params where
  /-- `WINDOW_SIZE`; R6: construction refuses a value of 0 or less. -/
  windowSize : Int
  /-- `TIMEOUT`, an opaque value handed to the timer substrate; no rule inspects it. -/
  timeout : Nat
  /-- `MAX_PAYLOAD`, from 0 to 2^31 - 1. -/
  maxPayload : Fin 2147483648
  /-- `PENDING_DEPTH`; `none` is the unbounded queue. -/
  pendingDepth : Option Nat
  deriving DecidableEq, Repr

/-- DESIGN CHOICE (log 5, unsafe): the arguments of the machine after reset. The spec gives
`WINDOW_SIZE` and `TIMEOUT` no value; `MAX_PAYLOAD` and `PENDING_DEPTH` are at R5's defaults.
No statement rests on them. -/
def resetParams : Params :=
  { windowSize := 4, timeout := 1, maxPayload := 2147483647, pendingDepth := none }

end Sys2Proof
end

