-- ==== Sys2Proof/Syntax.lean ====
section
/-! DEFINITION. The operations of the block (spec/30_encoding.md R84 and every row of
spec/opcode_table.json), their operands, and the transactions of its interface. -/

namespace Sys2Proof

/-- R107, R192: the diagnostic kinds of `CorruptionError`. -/
inductive CorruptionKind where
  | truncated
  | checksum
  | length
  deriving DecidableEq, Repr

/-- R71: the decoded form of a frame. -/
structure Packet where
  seq : I32
  ack : I32
  checksum : U16
  ackFlag : Bool
  payloadLength : I32
  payload : Bytes
  deriving DecidableEq, Repr

/-- One constructor per row of spec/opcode_table.json. -/
inductive Instr where
  /-- APP_SEND (R171). -/
  | appSend (payload : Bytes)
  /-- NET_RECV (R172). -/
  | netRecv (raw : Bytes)
  /-- TIMER_FIRE (R173). -/
  | timerFire
  /-- CMD.RESERVED (R183): a command code with no meaning, and whatever stands after it. -/
  | cmdReserved (code : Byte) (operand : Bytes)
  /-- FRAME.DATA (R75): a frame whose flag byte is 0x00, field by field (R70). -/
  | frameData (seq ack : I32) (checksum : U16) (payloadLength : I32) (payload : Bytes)
  /-- FRAME.ACK (R76, R77): a frame whose flag byte is not 0x00. -/
  | frameAck (seq ack : I32) (checksum : U16) (flag : Byte) (payloadLength : I32) (payload : Bytes)
  /-- CHECKSUM (R102). -/
  | checksum (b : Bytes)
  /-- ENCODE (R104). -/
  | encode (seq ack : I32) (ackFlag : Bool) (payload : Bytes)
  /-- DECODE (R107). -/
  | decode (raw : Bytes)
  /-- SUBMIT (R132). -/
  | submit (payload : Bytes)
  /-- DRAIN (R134). -/
  | drain
  /-- ON_ACK (R135). -/
  | onAck (ackNum : I32)
  /-- ON_TIMEOUT (R139). -/
  | onTimeout
  /-- ON_DATA (R161, R162). -/
  | onData (packet : Packet)
  /-- ON_CORRUPTION (R163); the kind is the one the event's status reports (log 18). -/
  | onCorruption (kind : CorruptionKind)
  /-- OCSUM (R101). -/
  | ocsum (b : Bytes)
  /-- VERIFY (R106). -/
  | verify (b : Bytes)
  /-- SEND_NEW (R133). -/
  | sendNew (payload : Bytes)
  /-- RESET (R220): entity construction with these parameters. -/
  | reset (params : Params)
  /-- TX (R175). -/
  | tx (frame : Bytes)
  /-- DELIVER (R176). -/
  | deliver (payload : Bytes)
  /-- TIMER_START (R177); its operand is the parameter `TIMEOUT`. -/
  | timerStart
  /-- TIMER_STOP (R178). -/
  | timerStop
  /-- DATA(s, p) (R80). -/
  | data (seq : I32) (payload : Bytes)
  /-- ACK(n) (R80). -/
  | ack (ackNum : I32)
  deriving DecidableEq, Repr

/-- R170: one transaction on the block's inputs: the event input (a command code and its operand as
one delimited byte string) or the reset input with the construction arguments. -/
inductive Transaction where
  | command (bytes : Bytes)
  | reset (params : Params)
  deriving DecidableEq, Repr

end Sys2Proof
end

