-- ==== Sys2Proof/WellFormed.lean ====
section
/-! DEFINITION. Which instruction terms are well-formed: the facts of their encodings and operands
that the types do not carry. What depends on the machine's parameters (a payload's length against
`MAX_PAYLOAD`, a window size) is exec's, not this file's. -/

namespace Sys2Proof

/-- R71, R78: the length field is the number of payload bytes. -/
def lengthFieldAgrees (payloadLength : I32) (payload : Bytes) : Bool :=
  decide (payloadLength.toInt = payload.length)

/-- Well-formed terms, constructor by constructor. -/
def Instr.wellFormed : Instr → Bool
  | .appSend _ => true
  | .netRecv _ => true
  | .timerFire => true
  -- R82: reserved are all codes but 0x01, 0x02, 0x03
  | .cmdReserved code _ => decide (code ≠ 0x01#8 ∧ code ≠ 0x02#8 ∧ code ≠ 0x03#8)
  | .frameData _ _ _ len p => lengthFieldAgrees len p
  -- R77: the flag byte of an acknowledgment frame is not zero
  | .frameAck _ _ _ flag len p => decide (flag ≠ 0x00#8) && lengthFieldAgrees len p
  | .checksum _ => true
  | .encode _ _ _ _ => true
  | .decode _ => true
  | .submit _ => true
  | .drain => true
  | .onAck _ => true
  | .onTimeout => true
  -- R161: the operand is a Packet with `ack_flag` false, as DECODE returns it
  | .onData p => !p.ackFlag && lengthFieldAgrees p.payloadLength p.payload
  | .onCorruption _ => true
  | .ocsum _ => true
  | .verify _ => true
  | .sendNew _ => true
  | .reset _ => true
  | .tx _ => true
  | .deliver _ => true
  | .timerStart => true
  | .timerStop => true
  | .data _ _ => true
  | .ack _ => true

end Sys2Proof
end

