-- ==== Sys2Proof/Decode.lean ====
section
/-! DEFINITION. From bytes to instructions and back: field assembly (spec/30_encoding.md R72), the
frame header (R70), the command codes (R82) and the action codes (R83); then the encoder. -/

namespace Sys2Proof

/-- Why a byte string is not an instruction. -/
inductive DecodeError where
  /-- A transaction or action record without a code byte. -/
  | empty
  /-- An operand after a code that has none (TIMER_FIRE, TIMER_START, TIMER_STOP). -/
  | operandOfNone (code : Byte)
  /-- R83: no action has this code. -/
  | noSuchAction (code : Byte)
  /-- R81: a frame shorter than its header. -/
  | truncatedFrame
  /-- R81: a frame whose length field is negative or does not give its length. -/
  | frameLength
  deriving DecidableEq, Repr

/-- The three places of the interface where encoded bytes stand (R82, R70, R83). -/
inductive Port where
  | command
  | channel
  | action
  deriving DecidableEq, Repr

/-! ### Field assembly -/

/-- R7: `b[i:j]`. -/
def slice (b : Bytes) (i j : Nat) : Bytes := (b.drop i).take (j - i)

/-- R7: `b[i]`; past the end 0x00, where no rule reads. -/
def byteAt (b : Bytes) (i : Nat) : Byte := b.getD i 0x00#8

/-- R7, R51: the value of a byte string, most significant byte first. -/
def natBE (b : Bytes) : Nat := b.foldl (fun acc x => acc * 256 + x.toNat) 0

/-- R7: the two bytes `[v[15:8], v[7:0]]`. -/
def be16 (v : U16) : Bytes := [v.extractLsb' 8 8, v.extractLsb' 0 8]

/-- R7, R73: the four bytes of the two's complement pattern. -/
def be32 (v : I32) : Bytes :=
  [v.extractLsb' 24 8, v.extractLsb' 16 8, v.extractLsb' 8 8, v.extractLsb' 0 8]

/-- R7: an unsigned 16-bit field. -/
def u16be (b : Bytes) : U16 := BitVec.ofNat 16 (natBE b)

/-- R7, R73: a signed 32-bit field; the pattern read as two's complement. -/
def s32be (b : Bytes) : I32 := BitVec.ofNat 32 (natBE b)

/-- R77: the flag byte the encoder writes. -/
def flagByte (f : Bool) : Byte := if f then 0x01#8 else 0x00#8

/-- R77: the flag the decoder reads: every byte but 0x00 is true. -/
def flagOf (b : Byte) : Bool := b != 0x00#8

/-- R70: the length of a header. -/
def hdrLen : Nat := 15

/-- R70: the header's fields in their order. -/
def headerBytes (seq ack : I32) (checksum : U16) (flag : Byte) (payloadLength : I32) : Bytes :=
  be32 seq ++ be32 ack ++ be16 checksum ++ [flag] ++ be32 payloadLength

/-! ### Codes -/

/-- R82. -/
def appSendCode : Byte := 0x01#8
def netRecvCode : Byte := 0x02#8
def timerFireCode : Byte := 0x03#8

/-- R83. -/
def txCode : Byte := 0x01#8
def deliverCode : Byte := 0x02#8
def timerStartCode : Byte := 0x03#8
def timerStopCode : Byte := 0x04#8

/-- R83, R191. -/
def okCode : Byte := 0x00#8
def staleAckCode : Byte := 0x01#8
def corruptTruncatedCode : Byte := 0x10#8
def corruptChecksumCode : Byte := 0x11#8
def corruptLengthCode : Byte := 0x12#8

/-! ### Decoding -/

/-- R82, R183: a transaction on the event input. -/
def decodeCommand (b : Bytes) : Except DecodeError Instr :=
  match b with
  | [] => .error .empty
  | c :: operand =>
    if c = appSendCode then .ok (.appSend operand)
    else if c = netRecvCode then .ok (.netRecv operand)
    else if c = timerFireCode then
      match operand with
      | [] => .ok .timerFire
      | _ :: _ => .error (.operandOfNone c)
    else .ok (.cmdReserved c operand)

/-- R70, R72, R75, R76, R77: a frame on the channel, by its header alone. The checksum is not tested
here: DECODE does that (R107). -/
def decodeChannel (b : Bytes) : Except DecodeError Instr :=
  if b.length < hdrLen then .error .truncatedFrame
  else
    let len := s32be (slice b 11 15)
    if len.toInt < 0 ∨ (b.length : Int) ≠ hdrLen + len.toInt then .error .frameLength
    else
      let seq := s32be (slice b 0 4)
      let ack := s32be (slice b 4 8)
      let sum := u16be (slice b 8 10)
      let payload := b.drop hdrLen
      if byteAt b 10 = 0x00#8 then .ok (.frameData seq ack sum len payload)
      else .ok (.frameAck seq ack sum (byteAt b 10) len payload)

/-- R83: an action record on the action output. -/
def decodeAction (b : Bytes) : Except DecodeError Instr :=
  match b with
  | [] => .error .empty
  | c :: operand =>
    if c = txCode then .ok (.tx operand)
    else if c = deliverCode then .ok (.deliver operand)
    else if c = timerStartCode then
      match operand with
      | [] => .ok .timerStart
      | _ :: _ => .error (.operandOfNone c)
    else if c = timerStopCode then
      match operand with
      | [] => .ok .timerStop
      | _ :: _ => .error (.operandOfNone c)
    else .error (.noSuchAction c)

/-- The decoder: total on every byte string of every port. -/
def decodeOn (port : Port) (b : Bytes) : Except DecodeError Instr :=
  match port with
  | .command => decodeCommand b
  | .channel => decodeChannel b
  | .action => decodeAction b

/-- R170: the instruction of a transaction: the event input's, or RESET for the reset input. -/
def decodeTransaction (t : Transaction) : Except DecodeError Instr :=
  match t with
  | .command b => decodeCommand b
  | .reset p => .ok (.reset p)

/-! ### Encoding -/

/-- The encoding of an instruction and the port it stands on, from the tables of R70, R82 and R83;
`none` for the rows of R84 that have no encoding of their own (R80's notation among them). -/
def encode (i : Instr) : Option (Port × Bytes) :=
  match i with
  | .appSend p => some (.command, appSendCode :: p)
  | .netRecv raw => some (.command, netRecvCode :: raw)
  | .timerFire => some (.command, [timerFireCode])
  | .cmdReserved c operand => some (.command, c :: operand)
  | .frameData seq ack sum len p => some (.channel, headerBytes seq ack sum 0x00#8 len ++ p)
  | .frameAck seq ack sum flag len p => some (.channel, headerBytes seq ack sum flag len ++ p)
  | .tx f => some (.action, txCode :: f)
  | .deliver p => some (.action, deliverCode :: p)
  | .timerStart => some (.action, [timerStartCode])
  | .timerStop => some (.action, [timerStopCode])
  | .checksum _ => none
  | .encode _ _ _ _ => none
  | .decode _ => none
  | .submit _ => none
  | .drain => none
  | .onAck _ => none
  | .onTimeout => none
  | .onData _ => none
  | .onCorruption _ => none
  | .ocsum _ => none
  | .verify _ => none
  | .sendNew _ => none
  | .reset _ => none
  | .data _ _ => none
  | .ack _ => none

/-! ### The opcode table's words -/

/-- The `n` bytes of a word, most significant byte first. -/
def bytesOfWordBE (n w : Nat) : Bytes :=
  match n with
  | 0 => []
  | k + 1 => BitVec.ofNat 8 (w / 256 ^ k) :: bytesOfWordBE k w

/-- The `n` bytes of a word, least significant byte first. -/
def bytesOfWordLE (n w : Nat) : Bytes :=
  match n with
  | 0 => []
  | k + 1 => BitVec.ofNat 8 w :: bytesOfWordLE k (w / 256)

/-- Where a table word of `nbits` bits stands and as which bytes: the table takes the 120 header bits
of a frame as one big-endian integer, and its other coded rows are command codes (log 7). -/
def tableBytes (nbits w : Nat) : Port × Bytes :=
  if nbits = 120 then (.channel, bytesOfWordBE 15 w)
  else (.command, bytesOfWordLE (nbits / 8) w)

/-- The instruction the decoder reads from a table word. -/
def decodeTableWord (nbits w : Nat) : Option Instr :=
  match decodeOn (tableBytes nbits w).1 (tableBytes nbits w).2 with
  | .ok i => some i
  | .error _ => none

/-- The transaction that brings a table word to the block: a command as it is, a frame as the operand
of NET_RECV (R172). -/
def tableTransaction (nbits w : Nat) : Transaction :=
  match (tableBytes nbits w).1 with
  | .channel => .command (netRecvCode :: (tableBytes nbits w).2)
  | .command => .command (tableBytes nbits w).2
  | .action => .command (tableBytes nbits w).2

end Sys2Proof
end

