-- ==== Sys2Proof/Machine/Flags.lean ====
section
/-! DEFINITION. The block keeps no flags (spec/10_state.md R26); what it computes in their place is the
16-bit one's-complement checksum of a byte string (spec/40_codec.md R100 to R106). Pure functions. -/

namespace Sys2Proof.Machine

/-- R100, R53: the string that is summed: one zero byte more where the length is odd. -/
def padded (b : Bytes) : Bytes := if b.length % 2 = 0 then b else b ++ [0x00#8]

/-- R100, R52: the successive 16-bit big-endian words of an even-length string. -/
def words : Bytes → List U16
  | hi :: lo :: rest => u16be [hi, lo] :: words rest
  | _ => []

/-- R101: one addition with its end-around carry, computed exactly and then narrowed. -/
def addFold (s w : U16) : U16 :=
  let t := s.toNat + w.toNat
  BitVec.ofNat 16 (t % 65536 + t / 65536)

/-- R101: OCSUM. -/
def ocsum (b : Bytes) : U16 := (words (padded b)).foldl addFold 0

/-- R102: CHECKSUM. -/
def checksum (b : Bytes) : U16 := ~~~ (ocsum b)

/-- R106: VERIFY: the recomputed checksum of the whole string is zero. -/
def verify (b : Bytes) : Bool := checksum b == 0x0000#16

end Sys2Proof.Machine
end

