-- ==== Sys2Proof/Machine/Operands.lean ====
section
/-! DEFINITION. The operand forms of the block are frames and Packets: ENCODE and DECODE as pure
functions (spec/40_codec.md R104, R107) and the fixed fields of spec/00_scope.md R5. -/

namespace Sys2Proof.Machine

/-- R5, R76: the `seq` field of an acknowledgment frame this block produces. -/
def ackSeqFill : I32 := 0

/-- R5, R75: the `ack` field of a data frame this block produces. -/
def dataAckFill : I32 := 0

/-- R104: the frame with the given checksum field. -/
def frameWith (seq ack : I32) (c : U16) (ackFlag : Bool) (payload : Bytes) : Bytes :=
  headerBytes seq ack c (flagByte ackFlag) (BitVec.ofNat 32 payload.length) ++ payload

/-- R104: ENCODE inside its domain (R105: the payload's length fits the signed length field). -/
def encodeFrame (seq ack : I32) (ackFlag : Bool) (payload : Bytes) : Bytes :=
  frameWith seq ack (checksum (frameWith seq ack 0x0000#16 ackFlag payload)) ackFlag payload

/-- R80: DATA(s, p), and R133: the frame SEND_NEW builds. -/
def dataFrame (seq : I32) (payload : Bytes) : Bytes := encodeFrame seq dataAckFill false payload

/-- R80: ACK(n), and R161: the frame ON_DATA builds. -/
def ackFrame (n : I32) : Bytes := encodeFrame ackSeqFill n true []

/-- R107, R81, R198: DECODE, its checks in their order. -/
def decodeFrame (b : Bytes) : Except CorruptionKind Packet :=
  if b.length < hdrLen then .error .truncated
  else if checksum b ≠ 0x0000#16 then .error .checksum
  else
    let len := s32be (slice b 11 15)
    if len.toInt < 0 ∨ (b.length : Int) ≠ hdrLen + len.toInt then .error .length
    else
      .ok { seq := s32be (slice b 0 4)
            ack := s32be (slice b 4 8)
            checksum := u16be (slice b 8 10)
            ackFlag := flagOf (byteAt b 10)
            payloadLength := len
            payload := slice b hdrLen (hdrLen + len.toInt.toNat) }

end Sys2Proof.Machine
end

