-- ==== Sys2Proof/Machine/State.lean ====
section
/-! DEFINITION. The state of one entity (spec/10_state.md R20, R30, R34), the records of its interface
(spec/43_dispatch.md R170), its reset (R36), and the reasons a step can stop (spec/60_exceptions.md R195). -/

namespace Sys2Proof.Machine

/-- R174, R83: a call outward. -/
inductive Action where
  | tx (frame : Bytes)
  | deliver (payload : Bytes)
  | timerStart (timeout : Nat)
  | timerStop
  deriving DecidableEq, Repr

/-- R191, R83: the completion status of one event. -/
inductive Status where
  | ok
  | staleAck
  | corruptTruncated
  | corruptChecksum
  | corruptLength
  deriving DecidableEq, Repr

/-- The value a pure operation returned when it was run by itself (the model's own; log 4). -/
inductive Result where
  | nothing
  | u16 (v : U16)
  | bool (v : Bool)
  | bytes (v : Bytes)
  | packet (p : Packet)
  | corruption (k : CorruptionKind)
  deriving DecidableEq, Repr

/-- R195: the model faults that end an event half done. -/
inductive Fault where
  /-- `SEQ_OVERFLOW` (R37): SUBMIT, DRAIN (so ON_ACK) and ON_DATA, where a register would pass 2147483647. Safe. -/
  | seqOverflow
  /-- `ENCODE_RANGE` (R105): APP_SEND, ENCODE, DATA and SEND_NEW (so SUBMIT and DRAIN) of a payload
  longer than `MAX_PAYLOAD`. Safe. -/
  | encodeRange
  deriving DecidableEq, Repr

/-- Why there is no step. -/
inductive Refusal where
  /-- An instruction exec gives no meaning yet: raised by exec's arms only. Safe. -/
  | notModelled (mnemonic : String)
  /-- `BAD_COMMAND` (R183, R195): a reserved command code. Raised by CMD.RESERVED. Safe. -/
  | badCommand (code : Byte)
  /-- `BAD_PARAMS` (R6, R195): RESET with a window size of 0 or less. Safe. -/
  | badParams
  /-- `QUEUE_FULL` (R57, R195): SUBMIT or APP_SEND on a full queue has no step. `step` never raises it:
  it leaves the held transaction in the input (log 6). Safe. -/
  | queueFull
  /-- A transaction that is not of the form R170 gives: raised by step when decoding fails (log 8). Safe. -/
  | malformedTransaction (e : DecodeError)
  deriving DecidableEq, Repr

/-- R28, R56: the frame store `in_flight`, sequence number to frame bytes. It has the place of a memory
here: a list of pairs, keys strictly rising in the signed order, a key not listed holding no frame. -/
abbrev Memory := List (I32 × Bytes)

/-- The canonical form of the frame store (R56, R140): keys strictly rising. -/
abbrev Memory.wf (m : Memory) : Prop := m.Pairwise (fun a b => a.1.toInt < b.1.toInt)

/-- R20, R30, R34: the whole state, with the interface's records after it. -/
structure State where
  /-- R30, R36: the construction arguments. -/
  params : Params
  /-- R22: the highest cumulatively acknowledged sequence number. -/
  lastAcked : I32
  /-- R23: the next sequence number to assign. -/
  nextSeq : I32
  /-- R25: the next sequence number to deliver. -/
  expectedSeq : I32
  /-- R27: payloads awaiting a window slot, oldest first. -/
  pending : List Bytes
  /-- R28: transmitted and unacknowledged frames. -/
  inFlight : Memory
  /-- R29: the most recently emitted acknowledgment frame. -/
  lastAckSent : Bytes
  /-- R34: the ghost bit. -/
  timerArmed : Bool
  /-- R199: what the environment has serialised and not yet delivered, first to be delivered first
  (the environment's state; log 1). -/
  input : List Transaction
  /-- R61: every action emitted since construction, in order (log 3). -/
  actions : List Action
  /-- R191: the status of every event completed since construction, in order (log 3). -/
  statuses : List Status
  /-- What the last pure operation run by itself returned (the model's own; log 4). -/
  result : Result
  deriving DecidableEq, Repr

/-- R36, R220: the entity that construction with these parameters produces, idle. -/
def State.construct (p : Params) : State :=
  { params := p
    lastAcked := 0
    nextSeq := 1
    expectedSeq := 1
    pending := []
    inFlight := []
    lastAckSent := encodeFrame 0 0 true []
    timerArmed := false
    input := []
    actions := []
    statuses := []
    result := .nothing }

/-- R36: the machine right after reset (parameters: log 5). -/
def State.reset : State := State.construct resetParams

end Sys2Proof.Machine
end

