-- ==== Sys2Proof/Machine/Output.lean ====
section
/-! DEFINITION. The block's two outputs as the interface carries them (spec/43_dispatch.md R170): action
records and status codes (spec/30_encoding.md R83). -/

namespace Sys2Proof.Machine

/-- R83, R191: the code of a status. -/
def Status.code (st : Status) : Byte :=
  match st with
  | .ok => okCode
  | .staleAck => staleAckCode
  | .corruptTruncated => corruptTruncatedCode
  | .corruptChecksum => corruptChecksumCode
  | .corruptLength => corruptLengthCode

/-- R83: the status of a code; no other code is one. -/
def Status.ofCode (c : Byte) : Option Status :=
  if c = okCode then some .ok
  else if c = staleAckCode then some .staleAck
  else if c = corruptTruncatedCode then some .corruptTruncated
  else if c = corruptChecksumCode then some .corruptChecksum
  else if c = corruptLengthCode then some .corruptLength
  else none

/-- R170, R83: an action as its record: the code and, for TX and DELIVER, the byte string. `TIMEOUT` is
opaque and has no byte form; the action itself carries it. -/
def Action.record (a : Action) : Bytes :=
  match a with
  | .tx f => txCode :: f
  | .deliver p => deliverCode :: p
  | .timerStart _ => [timerStartCode]
  | .timerStop => [timerStopCode]

/-- R170: the action output, every record since construction in order. -/
def State.actionOutput (s : State) : List Bytes := s.actions.map Action.record

/-- R170, R191: the status output, the code of every completed event in order. -/
def State.statusOutput (s : State) : List Byte := s.statuses.map Status.code

end Sys2Proof.Machine
end

