-- ==== Sys2Proof/Machine/Ops.lean ====
section
/-! DEFINITION. The operations the meanings share: sequencing, emitting an action, the status, the
counters, the buffers (spec/20_memory.md R56 to R58), the slot test, and what takes the place of an
exception's entry here: absorbing a `CorruptionError` (spec/60_exceptions.md R200). -/

namespace Sys2Proof.Machine

/-- What an operation answers. -/
abbrev Out := Host.Outcome State Fault Refusal

/-- Go on from a next state; a fault or refusal ends the event. -/
def andThen (o : Out) (f : State → Out) : Out :=
  match o with
  | .next s => f s
  | .fault r => .fault r
  | .refused r => .refused r

/-! ### Output -/

/-- R34, R177, R178: the ghost bit after an action. -/
def armedAfter (a : Action) (armed : Bool) : Bool :=
  match a with
  | .timerStart _ => true
  | .timerStop => false
  | .tx _ => armed
  | .deliver _ => armed

/-- R8, R61: `emit A`. -/
def State.emit (a : Action) (s : State) : State :=
  { s with actions := s.actions ++ [a], timerArmed := armedAfter a s.timerArmed }

/-- R177: `TIMER_START(TIMEOUT)`. -/
def State.startTimer (s : State) : State := s.emit (.timerStart s.params.timeout)

/-- R204: stop, then start. -/
def State.restartTimer (s : State) : State := (s.emit .timerStop).startTimer

/-- R8, R191: `status <- S`. -/
def State.setStatus (st : Status) (s : State) : State := { s with statuses := s.statuses ++ [st] }

/-- Record what a pure operation returned (log 4). -/
def State.setResult (r : Result) (s : State) : State := { s with result := r }

/-! ### Counters -/

/-- R131: "a window slot is free". -/
def State.slotFree (s : State) : Bool :=
  decide (s.nextSeq.toInt < s.lastAcked.toInt + s.params.windowSize)

/-- R37: a register plus 1, or nothing where the sum leaves the I32 range. -/
def incSeq (v : I32) : Option I32 := if v.toInt = i32Max then none else some (v + 1)

/-- R132, R134: `next_seq <- next_seq + 1`. -/
def State.advanceNext (s : State) : Out :=
  match incSeq s.nextSeq with
  | some v => .next { s with nextSeq := v }
  | none => .fault .seqOverflow

/-! ### Buffers -/

/-- R56: `in_flight[s]`. -/
def Memory.get? (m : Memory) (k : I32) : Option Bytes :=
  match m with
  | [] => none
  | (k', f) :: rest => if k' = k then some f else Memory.get? rest k

/-- R56: `in_flight[s] <- f`. -/
def Memory.insert (m : Memory) (k : I32) (f : Bytes) : Memory :=
  match m with
  | [] => [(k, f)]
  | (k', f') :: rest =>
    if k.toInt < k'.toInt then (k, f) :: (k', f') :: rest
    else if k = k' then (k, f) :: rest
    else (k', f') :: Memory.insert rest k f

/-- R56: `delete in_flight[s]`. -/
def Memory.delete (m : Memory) (k : I32) : Memory := m.filter (fun e => e.1 != k)

/-- R57: a queue of finite depth with no place left. -/
def State.queueFull (s : State) : Bool :=
  match s.params.pendingDepth with
  | none => false
  | some d => decide (d ≤ s.pending.length)

/-- R57: `pending.push_back(p)`; no step where the queue is full. -/
def State.pushPending (p : Bytes) (s : State) : Out :=
  if s.queueFull then .refused .queueFull else .next { s with pending := s.pending ++ [p] }

/-! ### The codec's domain -/

/-- R105: ENCODE as the block calls it: nothing where the payload is longer than `MAX_PAYLOAD`. -/
def encodeInDomain (p : Params) (seq ack : I32) (ackFlag : Bool) (payload : Bytes) : Option Bytes :=
  if payload.length ≤ p.maxPayload.val then some (encodeFrame seq ack ackFlag payload) else none

/-! ### Absorbing an error -/

/-- R172, R191: the status code of a DECODE failure. -/
def statusOf (k : CorruptionKind) : Status :=
  match k with
  | .truncated => .corruptTruncated
  | .checksum => .corruptChecksum
  | .length => .corruptLength

/-- R162, R163: transmit the stored acknowledgment frame again, unchanged. -/
def State.resendLastAck (s : State) : State := s.emit (.tx s.lastAckSent)

/-- R163, R200: what an event does on a `CorruptionError`. -/
def State.absorbCorruption (k : CorruptionKind) (s : State) : State :=
  s.resendLastAck.setStatus (statusOf k)

end Sys2Proof.Machine
end

