-- ==== Sys2Proof/Machine/Actions.lean ====
section
/-! DEFINITION. The four output actions (spec/43_dispatch.md R174 to R178). -/

namespace Sys2Proof.Machine

/-- R175. -/
def execTx (frame : Bytes) (s : State) : Out := .next (s.emit (.tx frame))

/-- R176. -/
def execDeliver (payload : Bytes) (s : State) : Out := .next (s.emit (.deliver payload))

/-- R177: the operand is the parameter `TIMEOUT`. -/
def execTimerStart (s : State) : Out := .next s.startTimer

/-- R178. -/
def execTimerStop (s : State) : Out := .next (s.emit .timerStop)

end Sys2Proof.Machine
end

