-- ==== Sys2Proof/Machine/Codec.lean ====
section
/-! DEFINITION. The meanings of the Packet Codec's operations and of the notation over them
(spec/40_codec.md, spec/30_encoding.md R80): pure, so each only returns its value (R111). -/

namespace Sys2Proof.Machine

/-- R101. -/
def execOcsum (b : Bytes) (s : State) : Out := .next (s.setResult (.u16 (ocsum b)))

/-- R102. -/
def execChecksum (b : Bytes) (s : State) : Out := .next (s.setResult (.u16 (checksum b)))

/-- R106. -/
def execVerify (b : Bytes) (s : State) : Out := .next (s.setResult (.bool (verify b)))

/-- R104, R105. -/
def execEncode (seq ack : I32) (ackFlag : Bool) (payload : Bytes) (s : State) : Out :=
  match encodeInDomain s.params seq ack ackFlag payload with
  | some f => .next (s.setResult (.bytes f))
  | none => .fault .encodeRange

/-- R107. -/
def execDecode (raw : Bytes) (s : State) : Out :=
  match decodeFrame raw with
  | .ok p => .next (s.setResult (.packet p))
  | .error k => .next (s.setResult (.corruption k))

/-- R80: DATA(s, p) stands for the bytes ENCODE(s, 0, false, p). -/
def execData (seq : I32) (payload : Bytes) (s : State) : Out :=
  match encodeInDomain s.params seq 0 false payload with
  | some f => .next (s.setResult (.bytes f))
  | none => .fault .encodeRange

/-- R80: ACK(n) stands for the bytes ENCODE(0, n, true, []). -/
def execAck (n : I32) (s : State) : Out :=
  .next (s.setResult (.bytes (encodeFrame 0 n true [])))

end Sys2Proof.Machine
end

