-- ==== Sys2Proof/Machine/ReceiveEngine.lean ====
section
/-! DEFINITION. The Receive Engine (spec/42_receive_engine.md): ON_DATA and ON_CORRUPTION. -/

namespace Sys2Proof.Machine

/-- R161: deliver, acknowledge, advance, remember. -/
def acceptData (p : Packet) (s : State) : Out :=
  let a := ackFrame s.expectedSeq
  match incSeq s.expectedSeq with
  | some v =>
    .next (({ (s.emit (.deliver p.payload)).emit (.tx a) with
        expectedSeq := v, lastAckSent := a }).setStatus .ok)
  | none => .fault .seqOverflow

/-- R161, R162: ON_DATA(packet). -/
def onData (p : Packet) (s : State) : Out :=
  if p.seq = s.expectedSeq then acceptData p s else .next (s.resendLastAck.setStatus .ok)

/-! ### Meanings -/

/-- R161, R162. -/
def execOnData (p : Packet) (s : State) : Out := onData p s

/-- R163. -/
def execOnCorruption (k : CorruptionKind) (s : State) : Out := .next (s.absorbCorruption k)

end Sys2Proof.Machine
end

