-- ==== Sys2Proof/Machine/SendEngine.lean ====
section
/-! DEFINITION. The Send Engine (spec/41_send_engine.md): the shared operations SEND_NEW, SUBMIT, DRAIN,
ON_ACK and ON_TIMEOUT, and their meanings. -/

namespace Sys2Proof.Machine

/-- R133: SEND_NEW(p). -/
def sendNew (p : Bytes) (s : State) : Out :=
  match encodeInDomain s.params s.nextSeq dataAckFill false p with
  | some f =>
    let s1 := s.emit (.tx f)
    .next { s1 with inFlight := Memory.insert s1.inFlight s1.nextSeq f }
  | none => .fault .encodeRange

/-- R132: the timer is started where the packet just sent is the only one in flight. -/
def startIfOnly (s : State) : State := if s.inFlight.length = 1 then s.startTimer else s

/-- R132: SUBMIT(payload). -/
def submit (p : Bytes) (s : State) : Out :=
  if s.slotFree then
    andThen (sendNew p s) fun s1 =>
      andThen (startIfOnly s1).advanceNext fun s2 => .next (s2.setStatus .ok)
  else andThen (s.pushPending p) fun s1 => .next (s1.setStatus .ok)

/-- R134: the loop of DRAIN over the payloads that are queued. -/
def drainQueue (q : List Bytes) (s : State) : Out :=
  match q with
  | [] => .next s
  | p :: rest =>
    if s.slotFree then
      andThen (sendNew p { s with pending := rest }) fun s1 =>
        andThen s1.advanceNext fun s2 => drainQueue rest s2
    else .next s

/-- R134: DRAIN(). -/
def drain (s : State) : Out := drainQueue s.pending s

/-- R135: the keys an acknowledgment removes, ascending. -/
def ackedKeys (s : State) (n : I32) : List I32 :=
  (s.inFlight.map (·.1)).filter fun k =>
    decide (s.lastAcked.toInt < k.toInt) && decide (k.toInt ≤ n.toInt)

/-- R135: remove each of these entries and stop the timer, once per removal. -/
def removeEach (keys : List I32) (s : State) : State :=
  match keys with
  | [] => s
  | k :: rest =>
    removeEach rest (State.emit .timerStop { s with inFlight := Memory.delete s.inFlight k })

/-- R135: restart before draining "if there is buffered data to send". -/
def restartIfQueued (s : State) : State := if s.pending.isEmpty then s else s.restartTimer

/-- R135: restart after draining if packets remain in flight. -/
def restartIfInFlight (s : State) : State := if s.inFlight.isEmpty then s else s.restartTimer

/-- R135, R137, R138: ON_ACK(ack_num). -/
def onAck (n : I32) (s : State) : Out :=
  let s1 := removeEach (ackedKeys s n) s
  if s1.lastAcked.toInt < n.toInt then
    andThen (drain (restartIfQueued { s1 with lastAcked := n })) fun s2 =>
      .next ((restartIfInFlight s2).setStatus .ok)
  else .next (s1.setStatus .staleAck)

/-- R139: transmit each stored frame, unmodified. -/
def resendEach (m : Memory) (s : State) : State :=
  match m with
  | [] => s
  | (_, f) :: rest => resendEach rest (s.emit (.tx f))

/-- R139, R140: ON_TIMEOUT(). -/
def onTimeout (s : State) : Out :=
  if s.inFlight.isEmpty then .next ((s.emit .timerStop).setStatus .ok)
  else .next ((resendEach s.inFlight s.restartTimer).setStatus .ok)

/-! ### Meanings -/

/-- R133. -/
def execSendNew (p : Bytes) (s : State) : Out := sendNew p s

/-- R132. -/
def execSubmit (p : Bytes) (s : State) : Out := submit p s

/-- R134. -/
def execDrain (s : State) : Out := drain s

/-- R135. -/
def execOnAck (n : I32) (s : State) : Out := onAck n s

/-- R139. -/
def execOnTimeout (s : State) : Out := onTimeout s

end Sys2Proof.Machine
end

