-- ==== Sys2Proof/Machine/Events.lean ====
section
/-! DEFINITION. The Dispatch Loop (spec/43_dispatch.md): the three events, the reserved codes, the two
frame kinds as they are received, and construction (spec/70_reset_and_hazards.md R220). -/

namespace Sys2Proof.Machine

/-- R172: the routing of one received byte string. -/
def receive (raw : Bytes) (s : State) : Out :=
  match decodeFrame raw with
  | .error k => .next (s.absorbCorruption k)
  | .ok p => if p.ackFlag then onAck p.ack s else onData p s

/-- R171. -/
def execAppSend (payload : Bytes) (s : State) : Out :=
  if payload.length ≤ s.params.maxPayload.val then submit payload s else .fault .encodeRange

/-- R172. -/
def execNetRecv (raw : Bytes) (s : State) : Out := receive raw s

/-- R173. -/
def execTimerFire (s : State) : Out := onTimeout s

/-- R183: refused, whatever the operand. -/
def execCmdReserved (code : Byte) (_operand : Bytes) (_s : State) : Out :=
  .refused (.badCommand code)

/-- R75: a data frame is received: DECODE's checks, then R161 or R162. -/
def execFrameData (seq ack : I32) (sum : U16) (len : I32) (payload : Bytes) (s : State) : Out :=
  receive (headerBytes seq ack sum 0x00#8 len ++ payload) s

/-- R76: an acknowledgment frame is received: DECODE's checks, then R135. -/
def execFrameAck (seq ack : I32) (sum : U16) (flag : Byte) (len : I32) (payload : Bytes)
    (s : State) : Out :=
  receive (headerBytes seq ack sum flag len ++ payload) s

/-- R220, R221, R6: construction; what the environment has yet to deliver is not the block's (log 19). -/
def execReset (p : Params) (s : State) : Out :=
  if p.windowSize ≤ 0 then .refused .badParams
  else .next { State.construct p with input := s.input }

end Sys2Proof.Machine
end

