-- ==== Sys2Proof/Machine/Dispatch.lean ====
section
/-! DEFINITION. One arm per row of spec/opcode_table.json. -/

namespace Sys2Proof.Machine

def exec (i : Instr) (s : State) : Host.Outcome State Fault Refusal :=
  match i with
  -- events (spec/43_dispatch.md)
  | .appSend p => Sys2Proof.Machine.execAppSend p s
  | .netRecv raw => Sys2Proof.Machine.execNetRecv raw s
  | .timerFire => Sys2Proof.Machine.execTimerFire s
  | .cmdReserved code operand => Sys2Proof.Machine.execCmdReserved code operand s
  -- frame kinds (spec/30_encoding.md)
  | .frameData seq ack sum len p => Sys2Proof.Machine.execFrameData seq ack sum len p s
  | .frameAck seq ack sum flag len p => Sys2Proof.Machine.execFrameAck seq ack sum flag len p s
  -- codec (spec/40_codec.md)
  | .checksum b => Sys2Proof.Machine.execChecksum b s
  | .encode seq ack flag p => Sys2Proof.Machine.execEncode seq ack flag p s
  | .decode raw => Sys2Proof.Machine.execDecode raw s
  -- send engine (spec/41_send_engine.md)
  | .submit p => Sys2Proof.Machine.execSubmit p s
  | .drain => Sys2Proof.Machine.execDrain s
  | .onAck n => Sys2Proof.Machine.execOnAck n s
  | .onTimeout => Sys2Proof.Machine.execOnTimeout s
  -- receive engine (spec/42_receive_engine.md)
  | .onData p => Sys2Proof.Machine.execOnData p s
  | .onCorruption k => Sys2Proof.Machine.execOnCorruption k s
  -- helper steps
  | .ocsum b => Sys2Proof.Machine.execOcsum b s
  | .verify b => Sys2Proof.Machine.execVerify b s
  | .sendNew p => Sys2Proof.Machine.execSendNew p s
  -- construction (spec/70_reset_and_hazards.md)
  | .reset p => Sys2Proof.Machine.execReset p s
  -- actions (spec/43_dispatch.md)
  | .tx f => Sys2Proof.Machine.execTx f s
  | .deliver p => Sys2Proof.Machine.execDeliver p s
  | .timerStart => Sys2Proof.Machine.execTimerStart s
  | .timerStop => Sys2Proof.Machine.execTimerStop s
  -- notation (spec/30_encoding.md R80)
  | .data seq p => Sys2Proof.Machine.execData seq p s
  | .ack n => Sys2Proof.Machine.execAck n s

end Sys2Proof.Machine
end

