-- ==== Sys2Proof/Machine/Fetch.lean ====
section
/-! DEFINITION. Which transaction the next step takes: the environment's first one, unless that is an
APP_SEND held off by a full queue (spec/20_memory.md R57, spec/60_exceptions.md R195; log 6). -/

namespace Sys2Proof.Machine

/-- R82: an APP_SEND transaction. -/
def isAppSend (t : Transaction) : Bool :=
  match t with
  | .command (c :: _) => c == appSendCode
  | .command [] => false
  | .reset _ => false

/-- R57: the transaction is an APP_SEND that would push onto a full queue. -/
def State.holds (s : State) (t : Transaction) : Bool :=
  match t with
  | .command (c :: p) =>
    c == appSendCode && decide (p.length ≤ s.params.maxPayload.val) && !s.slotFree && s.queueFull
  | .command [] => false
  | .reset _ => false

/-- The first transaction that is no APP_SEND, and the others in their order. -/
def takeOther (ts : List Transaction) : Option (Transaction × List Transaction) :=
  match ts with
  | [] => none
  | t :: rest =>
    if isAppSend t then
      match takeOther rest with
      | some (u, others) => some (u, t :: others)
      | none => none
    else some (t, rest)

/-- The transaction of the next step and what is left of the input; none while the block is idle or
every transaction is held off. -/
def State.takeTransaction (s : State) : Option (Transaction × List Transaction) :=
  match s.input with
  | [] => none
  | t :: rest =>
    if s.holds t then
      match takeOther rest with
      | some (u, others) => some (u, t :: others)
      | none => none
    else some (t, rest)

end Sys2Proof.Machine
end

