-- ==== Sys2Proof/Machine/Step.lean ====
section
/-! DEFINITION. One step is one whole event (spec/43_dispatch.md R170). -/

namespace Sys2Proof.Machine

/-- R170, R9: take the next transaction, decode it and run it to completion. With nothing to take the
block stays idle (R24; log 2). -/
def step (s : State) : Host.Outcome State Fault Refusal :=
  match s.takeTransaction with
  | none => .next s
  | some (t, rest) =>
    match decodeTransaction t with
    | .ok i => exec i { s with input := rest }
    | .error e => .refused (.malformedTransaction e)

/-- The state with a table word's transaction first in the input (log 2, log 7). -/
def State.withFetchWord (s : State) (nbits w : Nat) : State :=
  { s with input := tableTransaction nbits w :: s.input }

end Sys2Proof.Machine
end

