-- ==== Sys2Proof/Safety.lean ====
section
/-! DEFINITION. The terms claims are stated in: what was transmitted and delivered, the net timer effect
(spec/43_dispatch.md R181), quiescence (spec/70_reset_and_hazards.md R236), the invariants of
spec/10_state.md R31 to R33, and the qualification they carry. -/

namespace Sys2Proof.Machine

/-! ### Action lists -/

/-- The frames of the TX actions, in order. -/
def transmitted (l : List Action) : List Bytes :=
  l.filterMap fun a =>
    match a with
    | .tx f => some f
    | .deliver _ => none
    | .timerStart _ => none
    | .timerStop => none

/-- The payloads of the DELIVER actions, in order. -/
def delivered (l : List Action) : List Bytes :=
  l.filterMap fun a =>
    match a with
    | .tx _ => none
    | .deliver p => some p
    | .timerStart _ => none
    | .timerStop => none

/-- R181: an action on the timer. -/
def Action.isTimer (a : Action) : Bool :=
  match a with
  | .tx _ => false
  | .deliver _ => false
  | .timerStart _ => true
  | .timerStop => true

/-- R181: the three net timer effects. -/
inductive NetTimer where
  | untouched
  | stopped
  | restarted
  deriving DecidableEq, Repr

/-- R181: the net effect so far, one action on. -/
def netAfter (e : NetTimer) (a : Action) : NetTimer :=
  match a with
  | .tx _ => e
  | .deliver _ => e
  | .timerStart _ => .restarted
  | .timerStop => .stopped

/-- R181: the net effect is the last timer action's. -/
def netTimer (l : List Action) : NetTimer := l.foldl netAfter .untouched

/-- R181: two action lists of one event are equivalent. -/
def actionsEquivalent (l l' : List Action) : Bool :=
  decide (l.filter (fun a => !a.isTimer) = l'.filter (fun a => !a.isTimer)) &&
    decide (netTimer l = netTimer l')

/-! ### Checksums -/

/-- R103: the ordinary integer sum `T` of the words of a byte string; an odd last byte is a high byte. -/
def wordTotal (b : Bytes) : Nat :=
  match b with
  | [] => 0
  | [hi] => hi.toNat * 256
  | hi :: lo :: rest => hi.toNat * 256 + lo.toNat + wordTotal rest

/-! ### Receiving -/

/-- The byte string that NET_RECV, FRAME.DATA and FRAME.ACK receive (R172, R75, R76). -/
def rawFrame (i : Instr) : Option Bytes :=
  match i with
  | .netRecv raw => some raw
  | .frameData seq ack sum len p => some (headerBytes seq ack sum 0x00#8 len ++ p)
  | .frameAck seq ack sum flag len p => some (headerBytes seq ack sum flag len ++ p)
  | .appSend _ => none
  | .timerFire => none
  | .cmdReserved _ _ => none
  | .checksum _ => none
  | .encode _ _ _ _ => none
  | .decode _ => none
  | .submit _ => none
  | .drain => none
  | .onAck _ => none
  | .onTimeout => none
  | .onData _ => none
  | .onCorruption _ => none
  | .ocsum _ => none
  | .verify _ => none
  | .sendNew _ => none
  | .reset _ => none
  | .tx _ => none
  | .deliver _ => none
  | .timerStart => none
  | .timerStop => none
  | .data _ _ => none
  | .ack _ => none

/-- R172: `i` is ON_DATA of `p`, or the receipt of a byte string that DECODE reads as the data packet `p`. -/
def ReceivesData (i : Instr) (p : Packet) : Prop :=
  i = .onData p ∨ ∃ raw, rawFrame i = some raw ∧ decodeFrame raw = .ok p ∧ p.ackFlag = false

/-- R172: `i` is ON_ACK of `n`, or the receipt of a byte string that DECODE reads as an acknowledgment
of `n`. -/
def ReceivesAck (i : Instr) (n : I32) : Prop :=
  i = .onAck n ∨
    ∃ raw p, rawFrame i = some raw ∧ decodeFrame raw = .ok p ∧ p.ackFlag = true ∧ p.ack = n

/-- R172: `i` is ON_CORRUPTION of kind `k`, or the receipt of a byte string that DECODE rejects so. -/
def ReceivesCorruption (i : Instr) (k : CorruptionKind) : Prop :=
  i = .onCorruption k ∨ ∃ raw, rawFrame i = some raw ∧ decodeFrame raw = .error k

/-! ### Runs -/

/-- R236: everything submitted has been acknowledged and the timer is not armed. -/
def State.quiescent (s : State) : Bool :=
  s.pending.isEmpty && s.inFlight.isEmpty && !s.timerArmed

/-- The qualification of R31: the next event is not an accepted acknowledgment with
`ack_num >= next_seq`. -/
def State.nextAckIsOfSent (s : State) : Prop :=
  ∀ t rest raw p, s.takeTransaction = some (t, rest) → decodeTransaction t = .ok (.netRecv raw) →
    decodeFrame raw = .ok p → p.ackFlag = true → p.ack.toInt < s.nextSeq.toInt

/-! ### The window -/

/-- The frames DRAIN sends for payloads that take the sequence numbers from `n` on, each under its
number (R134). -/
def framesFrom (n : I32) (payloads : List Bytes) : Memory :=
  match payloads with
  | [] => []
  | p :: rest => (n, dataFrame n p) :: framesFrom (n + 1) rest

/-- R56: a list of frames inserted one after the other. -/
def Memory.insertAll (m : Memory) (entries : Memory) : Memory :=
  entries.foldl (fun m e => Memory.insert m e.1 e.2) m

/-- The entries an acknowledgment of `n` leaves: those outside `(last_acked, n]` (R135). -/
def Memory.unacked (m : Memory) (lastAcked n : I32) : Memory :=
  m.filter fun e => !(decide (lastAcked.toInt < e.1.toInt) && decide (e.1.toInt ≤ n.toInt))

/-- How many queued payloads DRAIN moves: as many as are queued and have a free slot (R134). -/
def State.drainable (s : State) (lastAcked : I32) : Nat :=
  min s.pending.length (lastAcked.toInt + s.params.windowSize - s.nextSeq.toInt).toNat

/-! ### Invariants -/

/-- What every step keeps, from every state and without R31's qualification. -/
structure Inv (s : State) : Prop where
  /-- R6. -/
  windowPositive : 1 ≤ s.params.windowSize
  /-- R37: from reset, `last_acked` is at least 0. -/
  lastAckedNonneg : 0 ≤ s.lastAcked.toInt
  /-- R37. -/
  nextSeqPositive : 1 ≤ s.nextSeq.toInt
  /-- R37. -/
  expectedSeqPositive : 1 ≤ s.expectedSeq.toInt
  /-- R32. -/
  windowBound : s.nextSeq.toInt - s.lastAcked.toInt ≤ s.params.windowSize
  /-- R56, R140: the canonical form of the frame store. -/
  storeOrdered : Memory.wf s.inFlight
  /-- R56: every key was a sequence number already assigned. -/
  keysAssigned : ∀ e ∈ s.inFlight, 1 ≤ e.1.toInt ∧ e.1.toInt < s.nextSeq.toInt
  /-- R33(a), R59: every stored frame is the data frame of its own key. -/
  storedFrames : ∀ e ∈ s.inFlight, ∃ p : Bytes, p.length ≤ s.params.maxPayload.val ∧ e.2 = dataFrame e.1 p
  /-- R33(b). -/
  queuedMeansFull : s.pending ≠ [] → s.slotFree = false
  /-- R171: every queued payload was admitted. -/
  queuedFit : ∀ p ∈ s.pending, p.length ≤ s.params.maxPayload.val
  /-- R57. -/
  queueBounded : ∀ d, s.params.pendingDepth = some d → s.pending.length ≤ d
  /-- R33(c). -/
  lastAckIsPrevious : s.lastAckSent = ackFrame (s.expectedSeq - 1)
  /-- R205. -/
  timerIffInFlight : s.timerArmed = !s.inFlight.isEmpty
  /-- R34: the ghost bit is what the emitted actions commanded. -/
  timerAsCommanded : s.timerArmed = decide (netTimer s.actions = .restarted)
  /-- R164: one delivery per accepted sequence number. -/
  deliveriesCounted : ((delivered s.actions).length : Int) = s.expectedSeq.toInt - 1

/-- R31, R33(d): the occupancy identity. -/
structure Occupancy (s : State) : Prop where
  /-- R33(d). -/
  ackedBelowNext : s.lastAcked.toInt < s.nextSeq.toInt
  /-- R31: the key set is the interval from `last_acked + 1` to `next_seq - 1`. -/
  keysAreInterval : ∀ k : I32,
    (∃ f, (k, f) ∈ s.inFlight) ↔ s.lastAcked.toInt < k.toInt ∧ k.toInt < s.nextSeq.toInt
  /-- R31: the number of entries. -/
  count : (s.inFlight.length : Int) = s.nextSeq.toInt - s.lastAcked.toInt - 1

end Sys2Proof.Machine
end

