-- ==== Sys2Proof/Certificates/Slice0/Obligations.lean ====
section
/-! DEFINITION. The statements for the provers, grouped as the spec's files are. A statement of the form
`exec i s = .next { s with … }` says the instruction completes, what it writes, and that every other
field of the state (every register, buffer, record and parameter) is unchanged. -/

open Sys2Proof Sys2Proof.Machine

/-! ### Packet Codec (spec/40_codec.md) -/

/-- R101 with R103(a), (b), (c): the one's-complement sum is the ordinary integer sum of the words
reduced modulo 65535 into 1 .. 65535, and 0 only for a sum of 0; so it depends on that sum alone. -/
def Obligations.OcsumIsSumModulo65535 : Prop :=
  ∀ (b : Bytes) (s : State), ∃ v : U16,
    exec (.ocsum b) s = .next { s with result := .u16 v } ∧
      v.toNat = if wordTotal b = 0 then 0 else (wordTotal b - 1) % 65535 + 1

/-- R102: CHECKSUM is 65535 minus OCSUM, with the rule's corner cases and its worked example. -/
def Obligations.ChecksumIsComplementOfOcsum : Prop :=
  (∀ (b : Bytes) (s : State), ∃ v : U16,
      exec (.checksum b) s = .next { s with result := .u16 v } ∧ v.toNat = 65535 - (ocsum b).toNat) ∧
    checksum [] = 0xFFFF#16 ∧ checksum [0x00#8] = 0xFFFF#16 ∧
    checksum [0xFF#8, 0xFF#8] = 0x0000#16 ∧ checksum [0xFF#8] = 0x00FF#16 ∧
    checksum [0x01#8, 0x02#8, 0x03#8] = 0xFBFD#16

/-- R106: VERIFY is "the recomputed checksum is zero", that is "the folded sum is 0xFFFF"; a byte string
whose bytes are all zero has sum 0x0000, checksum 0xFFFF, and fails. -/
def Obligations.VerifyAcceptsSumAllOnes : Prop :=
  (∀ (b : Bytes) (s : State), ∃ v : Bool,
      exec (.verify b) s = .next { s with result := .bool v } ∧
        (v = true ↔ checksum b = 0x0000#16) ∧ (v = true ↔ ocsum b = 0xFFFF#16)) ∧
    ∀ b : Bytes, (∀ x ∈ b, x = 0x00#8) →
      ocsum b = 0x0000#16 ∧ checksum b = 0xFFFF#16 ∧ verify b = false

/-- R104: ENCODE inside its domain returns the header fields in their order, with the checksum of the
same bytes taken with a zero checksum field, and then the payload. -/
def Obligations.EncodeBuildsChecksummedFrame : Prop :=
  ∀ (seq ack : I32) (f : Bool) (p : Bytes) (s : State), p.length ≤ s.params.maxPayload.val →
    let fb : Byte := if f then 0x01#8 else 0x00#8
    let len : I32 := BitVec.ofNat 32 p.length
    let z := be32 seq ++ be32 ack ++ [0x00#8, 0x00#8] ++ [fb] ++ be32 len ++ p
    exec (.encode seq ack f p) s =
      .next { s with
        result := .bytes (be32 seq ++ be32 ack ++ be16 (checksum z) ++ [fb] ++ be32 len ++ p) }

/-- R105: a payload longer than `MAX_PAYLOAD` is the fault ENCODE_RANGE in every operation that encodes
or admits a payload. -/
def Obligations.OverlongPayloadFaults : Prop :=
  ∀ (seq ack : I32) (f : Bool) (p : Bytes) (s : State), s.params.maxPayload.val < p.length →
    exec (.encode seq ack f p) s = .fault .encodeRange ∧
      exec (.data seq p) s = .fault .encodeRange ∧
      exec (.sendNew p) s = .fault .encodeRange ∧
      exec (.appSend p) s = .fault .encodeRange

/-- R107, R81, R198: DECODE completes on every byte string. The kinds are tested in the order
TRUNCATED, CHECKSUM, LENGTH, and a byte string that passes is read field by field at the offsets of R70. -/
def Obligations.DecodeReadsFieldsAfterOrderedChecks : Prop :=
  (∀ (b : Bytes) (s : State), b.length < 15 →
      exec (.decode b) s = .next { s with result := .corruption .truncated }) ∧
    (∀ (b : Bytes) (s : State), 15 ≤ b.length → checksum b ≠ 0x0000#16 →
      exec (.decode b) s = .next { s with result := .corruption .checksum }) ∧
    ∀ (s3 s2 s1 s0 a3 a2 a1 a0 c1 c0 fl l3 l2 l1 l0 : Byte) (p : Bytes) (s : State),
      let b := [s3, s2, s1, s0, a3, a2, a1, a0, c1, c0, fl, l3, l2, l1, l0] ++ p
      let len : I32 := l3 ++ l2 ++ l1 ++ l0
      checksum b = 0x0000#16 →
        (len.toInt ≠ p.length →
          exec (.decode b) s = .next { s with result := .corruption .length }) ∧
        (len.toInt = p.length →
          exec (.decode b) s = .next { s with
            result := .packet {
              seq := s3 ++ s2 ++ s1 ++ s0
              ack := a3 ++ a2 ++ a1 ++ a0
              checksum := c1 ++ c0
              ackFlag := decide (fl ≠ 0x00#8)
              payloadLength := len
              payload := p } })

/-- R108: decoding what ENCODE built recovers every argument, and the checksum read is the one written. -/
def Obligations.DecodeRecoversEncodedFields : Prop :=
  ∀ (seq ack : I32) (f : Bool) (p : Bytes), p.length ≤ 2147483647 → ∃ c : U16,
    encodeFrame seq ack f p = frameWith seq ack c f p ∧
      decodeFrame (encodeFrame seq ack f p) =
        .ok { seq := seq, ack := ack, checksum := c, ackFlag := f,
              payloadLength := BitVec.ofNat 32 p.length, payload := p }

/-- R109(a): changing any one byte of a byte string that verifies always makes it fail VERIFY, so a
received frame changed in one byte is answered as CORRUPT_CHECKSUM. -/
def Obligations.OneByteChangeIsAlwaysDetected : Prop :=
  ∀ (b : Bytes) (i : Nat) (x : Byte) (h : i < b.length) (s : State), verify b = true → x ≠ b[i] →
    verify (b.set i x) = false ∧
      (15 ≤ b.length → exec (.netRecv (b.set i x)) s =
        .next { s with actions := s.actions ++ [.tx s.lastAckSent]
                       statuses := s.statuses ++ [.corruptChecksum] })

/-- R110: where the body sums to 0xFFFF the encoder writes the checksum 0x0000, and the same body with
the field 0xFFFF decodes to the same packet but for that field. -/
def Obligations.ZeroChecksumHasSecondEncoding : Prop :=
  ∀ (seq ack : I32) (f : Bool) (p : Bytes), p.length ≤ 2147483647 →
    ocsum (frameWith seq ack 0x0000#16 f p) = 0xFFFF#16 →
      encodeFrame seq ack f p = frameWith seq ack 0x0000#16 f p ∧
        decodeFrame (frameWith seq ack 0xFFFF#16 f p) =
          .ok { seq := seq, ack := ack, checksum := 0xFFFF#16, ackFlag := f,
                payloadLength := BitVec.ofNat 32 p.length, payload := p }

/-- R80: the two abbreviations return the bytes of their expansions, with the rule's two examples. -/
def Obligations.NotationExpandsToEncodedFrames : Prop :=
  (∀ (n : I32) (p : Bytes) (s : State), p.length ≤ s.params.maxPayload.val →
      exec (.data n p) s = .next { s with result := .bytes (encodeFrame n 0 false p) }) ∧
    (∀ (n : I32) (s : State),
      exec (.ack n) s = .next { s with result := .bytes (encodeFrame 0 n true []) }) ∧
    encodeFrame 0 1 true [] =
      [0x00#8, 0x00#8, 0x00#8, 0x00#8, 0x00#8, 0x00#8, 0x00#8, 0x01#8, 0xFE#8, 0xFE#8, 0x01#8,
        0x00#8, 0x00#8, 0x00#8, 0x00#8] ∧
    encodeFrame 1 0 false [0x61#8] =
      [0x00#8, 0x00#8, 0x00#8, 0x01#8, 0x00#8, 0x00#8, 0x00#8, 0x00#8, 0xFE#8, 0x9D#8, 0x00#8,
        0x00#8, 0x00#8, 0x00#8, 0x01#8, 0x61#8]

/-! ### Send Engine (spec/41_send_engine.md) -/

/-- R133: SEND_NEW transmits the data frame of `next_seq` and stores exactly those bytes under it;
`next_seq` and the timer are unchanged, and every other entry of the frame store reads as before. -/
def Obligations.SendNewTransmitsAndStoresFrame : Prop :=
  ∀ (p : Bytes) (s : State), p.length ≤ s.params.maxPayload.val →
    let f := encodeFrame s.nextSeq 0 false p
    ∃ m : Memory,
      exec (.sendNew p) s = .next { s with inFlight := m, actions := s.actions ++ [.tx f] } ∧
        Memory.get? m s.nextSeq = some f ∧
        ∀ k, k ≠ s.nextSeq → Memory.get? m k = Memory.get? s.inFlight k

/-- R132 (and R171): SUBMIT, and APP_SEND of an admitted payload. A free slot: transmit the frame of
`next_seq`, store it, start the timer where it is the only one in flight, advance `next_seq`. No free
slot: queue at the back. SEQ_OVERFLOW where `next_seq` is 2147483647. -/
def Obligations.SubmitSendsOrQueues : Prop :=
  ∀ (i : Instr) (p : Bytes) (s : State), i = .submit p ∨ i = .appSend p →
    p.length ≤ s.params.maxPayload.val →
      let f := encodeFrame s.nextSeq 0 false p
      let m := Memory.insert s.inFlight s.nextSeq f
      (s.nextSeq.toInt < s.lastAcked.toInt + s.params.windowSize → s.nextSeq.toInt < 2147483647 →
        exec i s = .next { s with
          inFlight := m
          nextSeq := s.nextSeq + 1
          actions := s.actions ++ [.tx f] ++
            (if m.length = 1 then [.timerStart s.params.timeout] else [])
          timerArmed := if m.length = 1 then true else s.timerArmed
          statuses := s.statuses ++ [.ok] }) ∧
      (s.nextSeq.toInt < s.lastAcked.toInt + s.params.windowSize → s.nextSeq.toInt = 2147483647 →
        exec i s = .fault .seqOverflow) ∧
      (¬ s.nextSeq.toInt < s.lastAcked.toInt + s.params.windowSize →
        (∀ d, s.params.pendingDepth = some d → s.pending.length < d) →
        exec i s = .next { s with
          pending := s.pending ++ [p]
          statuses := s.statuses ++ [.ok] })

/-- R132, "start the retransmission timer if this is the only in-flight packet (window was empty)": in
a state that keeps the invariant, SUBMIT into a free slot starts the timer exactly when the window was
empty, and every frame stored before reads as before. -/
def Obligations.SubmitStartsTimerOnlyFromEmptyWindow : Prop :=
  ∀ (i : Instr) (p : Bytes) (s t : State), i = .submit p ∨ i = .appSend p → Inv s →
    s.slotFree = true → exec i s = .next t →
      (∃ f, t.actions = s.actions ++ [.tx f] ++
        (if s.inFlight = [] then [.timerStart s.params.timeout] else [])) ∧
      ∀ k, k ≠ s.nextSeq → Memory.get? t.inFlight k = Memory.get? s.inFlight k

/-- R134: DRAIN moves as many payloads as are queued and have a free slot, oldest first, under
consecutive sequence numbers, one TX each and no timer action; SEQ_OVERFLOW where they would pass
2147483647. -/
def Obligations.DrainMovesQueuedIntoFreeSlots : Prop :=
  ∀ s : State,
    let k := s.drainable s.lastAcked
    let sent := framesFrom s.nextSeq (s.pending.take k)
    (∀ p ∈ s.pending.take k, p.length ≤ s.params.maxPayload.val) →
      (s.nextSeq.toInt + k ≤ 2147483647 →
        exec .drain s = .next { s with
          pending := s.pending.drop k
          nextSeq := s.nextSeq + BitVec.ofNat 32 k
          inFlight := s.inFlight.insertAll sent
          actions := s.actions ++ sent.map fun e => .tx e.2 }) ∧
      (2147483647 < s.nextSeq.toInt + k → exec .drain s = .fault .seqOverflow)

/-- R137: an acknowledgment with `ack_num <= last_acked`, received or run by itself, writes no state,
emits no action and reports STALE_ACK; 0 and negative numbers are included where `last_acked` is not
below them. -/
def Obligations.StaleAckChangesNothing : Prop :=
  ∀ (i : Instr) (n : I32) (s : State), ReceivesAck i n → n.toInt ≤ s.lastAcked.toInt →
    exec i s = .next { s with statuses := s.statuses ++ [.staleAck] }

/-- R135: an acknowledgment with `ack_num > last_acked` removes the covered entries with one TIMER_STOP
each, advances `last_acked`, restarts the timer if payloads are queued, drains, and restarts it again
if frames remain in flight. No upper bound on the number is tested (R138). -/
def Obligations.AdvancingAckRemovesDrainsAndRestarts : Prop :=
  ∀ (i : Instr) (n : I32) (s : State), ReceivesAck i n → s.lastAcked.toInt < n.toInt →
    let kept := s.inFlight.unacked s.lastAcked n
    let removed := s.inFlight.length - kept.length
    let k := s.drainable n
    let sent := framesFrom s.nextSeq (s.pending.take k)
    let m := kept.insertAll sent
    let restart : List Action := [.timerStop, .timerStart s.params.timeout]
    (∀ p ∈ s.pending.take k, p.length ≤ s.params.maxPayload.val) →
      s.nextSeq.toInt + k ≤ 2147483647 →
        exec i s = .next { s with
          lastAcked := n
          pending := s.pending.drop k
          nextSeq := s.nextSeq + BitVec.ofNat 32 k
          inFlight := m
          actions := s.actions ++ List.replicate removed .timerStop ++
            (if s.pending = [] then [] else restart) ++ sent.map (fun e => .tx e.2) ++
            (if m = [] then [] else restart)
          timerArmed :=
            if m ≠ [] ∨ s.pending ≠ [] then true
            else if removed = 0 then s.timerArmed else false
          statuses := s.statuses ++ [.ok] }

/-- R136: the net timer effect of ON_ACK by case, in every state that keeps the invariant: untouched by
a stale acknowledgment; where the window advances, restarted if frames are in flight afterwards, and
otherwise stopped if an entry was removed and untouched if none was. Frames are in flight afterwards
whenever a payload was queued. -/
def Obligations.AckNetTimerEffectByCase : Prop :=
  ∀ (n : I32) (s t : State), Inv s → exec (.onAck n) s = .next t →
    ∃ new, t.actions = s.actions ++ new ∧
      (n.toInt ≤ s.lastAcked.toInt → new = []) ∧
      (s.lastAcked.toInt < n.toInt → t.inFlight ≠ [] → netTimer new = .restarted) ∧
      (s.lastAcked.toInt < n.toInt → t.inFlight = [] → s.inFlight ≠ [] → netTimer new = .stopped) ∧
      (s.lastAcked.toInt < n.toInt → t.inFlight = [] → s.inFlight = [] → new = []) ∧
      (s.lastAcked.toInt < n.toInt → s.pending ≠ [] → t.inFlight ≠ [])

/-- R181, R136: the reference list of ON_ACK is equivalent to the shortest list with the same effect: its
transmissions, and one timer action or none at the end. -/
def Obligations.AckActionsEquivalentToShortList : Prop :=
  ∀ (n : I32) (s t : State), Inv s → exec (.onAck n) s = .next t →
    ∃ new, t.actions = s.actions ++ new ∧ delivered new = [] ∧
      actionsEquivalent new
        ((transmitted new).map Action.tx ++
          (if n.toInt ≤ s.lastAcked.toInt then []
            else if t.inFlight ≠ [] then [.timerStart s.params.timeout]
            else if s.inFlight ≠ [] then [.timerStop] else [])) = true

/-- R135, R205, R236: an acknowledgment of the last number assigned, with nothing queued, empties the
window in one step, and the entity is then quiescent with its timer commanded to stop. -/
def Obligations.AckOfLastSentQuiesces : Prop :=
  ∀ (n : I32) (s : State), Inv s → Occupancy s → s.pending = [] → s.lastAcked.toInt < n.toInt →
    n.toInt + 1 = s.nextSeq.toInt →
      ∃ t, exec (.onAck n) s = .next t ∧ t.quiescent = true ∧ Occupancy t ∧ t.lastAcked = n

/-- R139, R140: ON_TIMEOUT and TIMER_FIRE. A window that is not empty: restart the timer, then transmit
every stored frame, unmodified, in the order of the frame store; in its canonical form that order is
ascending in the sequence number. An empty window: stop the timer and send nothing. -/
def Obligations.TimeoutResendsWholeWindowInOrder : Prop :=
  ∀ (i : Instr) (s : State), i = .onTimeout ∨ i = .timerFire →
    (s.inFlight ≠ [] →
      exec i s = .next { s with
        actions := s.actions ++ [.timerStop, .timerStart s.params.timeout] ++
          s.inFlight.map fun e => .tx e.2
        timerArmed := true
        statuses := s.statuses ++ [.ok] }) ∧
    (s.inFlight = [] →
      exec i s = .next { s with
        actions := s.actions ++ [.timerStop]
        timerArmed := false
        statuses := s.statuses ++ [.ok] }) ∧
    (Memory.wf s.inFlight → (s.inFlight.map fun e => e.1.toInt).Pairwise (· < ·))

/-- R130: the operations of the Send Engine leave `expected_seq`, `last_ack_sent`, the parameters, the
input and the model's result field as they are, and deliver nothing. -/
def Obligations.SendEngineLeavesReceiverAlone : Prop :=
  ∀ (i : Instr) (s t : State),
    (∃ p, i = .submit p ∨ i = .appSend p ∨ i = .sendNew p) ∨ i = .drain ∨ (∃ n, ReceivesAck i n) ∨
      i = .onTimeout ∨ i = .timerFire →
    exec i s = .next t →
      t.expectedSeq = s.expectedSeq ∧ t.lastAckSent = s.lastAckSent ∧ t.params = s.params ∧
        t.input = s.input ∧ t.result = s.result ∧ delivered t.actions = delivered s.actions

/-! ### Receive Engine (spec/42_receive_engine.md) -/

/-- R161: a data packet with the expected number, received or given to ON_DATA: deliver its payload,
transmit the acknowledgment of that number, advance `expected_seq` by 1 and remember the
acknowledgment; SEQ_OVERFLOW where `expected_seq` is 2147483647. -/
def Obligations.ExpectedDataIsDeliveredAndAcknowledged : Prop :=
  ∀ (i : Instr) (p : Packet) (s : State), ReceivesData i p → p.seq = s.expectedSeq →
    let a := encodeFrame 0 s.expectedSeq true []
    (s.expectedSeq.toInt < 2147483647 →
      exec i s = .next { s with
        expectedSeq := s.expectedSeq + 1
        lastAckSent := a
        actions := s.actions ++ [.deliver p.payload, .tx a]
        statuses := s.statuses ++ [.ok] }) ∧
    (s.expectedSeq.toInt = 2147483647 → exec i s = .fault .seqOverflow)

/-- R162: a data packet with any other number delivers nothing, writes no state, and transmits the
stored acknowledgment unchanged. -/
def Obligations.UnexpectedDataResendsLastAck : Prop :=
  ∀ (i : Instr) (p : Packet) (s : State), ReceivesData i p → p.seq ≠ s.expectedSeq →
    exec i s = .next { s with
      actions := s.actions ++ [.tx s.lastAckSent]
      statuses := s.statuses ++ [.ok] }

/-- R163: a byte string that DECODE rejects, whatever the kind, transmits the stored acknowledgment
unchanged, writes no state, and reports the kind's status. -/
def Obligations.CorruptionResendsLastAck : Prop :=
  ∀ (i : Instr) (k : CorruptionKind) (s : State), ReceivesCorruption i k →
    exec i s = .next { s with
      actions := s.actions ++ [.tx s.lastAckSent]
      statuses := s.statuses ++
        [match k with
          | .truncated => .corruptTruncated
          | .checksum => .corruptChecksum
          | .length => .corruptLength] }

/-- R160: what the Receive Engine answers and writes depends on `expected_seq` and `last_ack_sent`
alone: two states that agree on these two, whatever their Send State, parameters and timer, emit the
same actions, none of them a timer action, and agree on them afterwards. -/
def Obligations.ReceiverIgnoresSendState : Prop :=
  ∀ (i : Instr) (s s' t : State),
    (∃ p, ReceivesData i p) ∨ (∃ k, ReceivesCorruption i k) →
    s.expectedSeq = s'.expectedSeq → s.lastAckSent = s'.lastAckSent → exec i s = .next t →
      ∃ t' new, exec i s' = .next t' ∧
        t.actions = s.actions ++ new ∧ t'.actions = s'.actions ++ new ∧
        new.all (fun a => !a.isTimer) = true ∧
        t'.expectedSeq = t.expectedSeq ∧ t'.lastAckSent = t.lastAckSent ∧
        t' = { s' with
          expectedSeq := t'.expectedSeq, lastAckSent := t'.lastAckSent
          actions := t'.actions, statuses := t'.statuses }

/-- R164: the receiver transmits exactly one frame for every received byte string that is not a verified
acknowledgment frame, and delivers at most one payload. -/
def Obligations.OneTransmissionPerNonAckFrame : Prop :=
  ∀ (raw : Bytes) (s t : State),
    (∀ p, decodeFrame raw = .ok p → p.ackFlag = false) → exec (.netRecv raw) s = .next t →
      (transmitted t.actions).length = (transmitted s.actions).length + 1 ∧
        (delivered t.actions).length ≤ (delivered s.actions).length + 1 ∧
        t.expectedSeq.toInt - s.expectedSeq.toInt =
          (delivered t.actions).length - (delivered s.actions).length

/-! ### Dispatch Loop and frames (spec/43_dispatch.md, spec/30_encoding.md) -/

/-- R172: exactly one of the three handlers runs, chosen by DECODE's result alone. -/
def Obligations.NetRecvRoutesByDecodeResult : Prop :=
  ∀ (raw : Bytes) (s : State),
    (∀ k, decodeFrame raw = .error k → exec (.netRecv raw) s = exec (.onCorruption k) s) ∧
      (∀ p, decodeFrame raw = .ok p → p.ackFlag = true →
        exec (.netRecv raw) s = exec (.onAck p.ack) s) ∧
      ∀ p, decodeFrame raw = .ok p → p.ackFlag = false →
        exec (.netRecv raw) s = exec (.onData p) s

/-- R75, R76, R77: a well-formed frame that verifies runs ON_DATA of the packet that was read where its
flag byte is 0x00, and ON_ACK of its `ack` field for each of the other 255 values; an acknowledgment's
`seq` field and payload are ignored. (That ON_DATA uses no field of its packet but `seq` and `payload` is
said by ExpectedDataIsDeliveredAndAcknowledged and UnexpectedDataResendsLastAck, not here.) -/
def Obligations.FlagByteSelectsFrameKind : Prop :=
  ∀ (seq ack : I32) (sum : U16) (flag : Byte) (len : I32) (p : Bytes) (s : State),
    (Instr.frameData seq ack sum len p).wellFormed = true →
      (verify (headerBytes seq ack sum 0x00#8 len ++ p) = true →
        exec (.frameData seq ack sum len p) s =
          exec (.onData { seq := seq, ack := ack, checksum := sum, ackFlag := false,
                          payloadLength := len, payload := p }) s) ∧
      (flag ≠ 0x00#8 → verify (headerBytes seq ack sum flag len ++ p) = true →
        exec (.frameAck seq ack sum flag len p) s = exec (.onAck ack) s)

/-- R175 to R178, R34: each action stands at the end of the action list; TIMER_START carries `TIMEOUT`
and sets the ghost bit, TIMER_STOP clears it, and nothing else changes. -/
def Obligations.ActionsAppendToOutput : Prop :=
  ∀ (b : Bytes) (s : State),
    exec (.tx b) s = .next { s with actions := s.actions ++ [.tx b] } ∧
      exec (.deliver b) s = .next { s with actions := s.actions ++ [.deliver b] } ∧
      exec .timerStart s = .next { s with
        actions := s.actions ++ [.timerStart s.params.timeout], timerArmed := true } ∧
      exec .timerStop s = .next { s with actions := s.actions ++ [.timerStop], timerArmed := false }

/-- R183: every command code but 0x01, 0x02 and 0x03 has no meaning: it decodes to CMD.RESERVED, which
exec refuses in every state, so a step that meets it has no next state. -/
def Obligations.ReservedCommandIsRefused : Prop :=
  ∀ (c : Byte) (operand : Bytes) (rest : List Transaction) (s : State),
    c ≠ 0x01#8 → c ≠ 0x02#8 → c ≠ 0x03#8 → s.input = .command (c :: operand) :: rest →
      decodeOn .command (c :: operand) = .ok (.cmdReserved c operand) ∧
        exec (.cmdReserved c operand) s = .refused (.badCommand c) ∧
        step s = .refused (.badCommand c)

/-- R170, R9: where the transaction that is taken decodes to `i`, the step is exec of `i` at the same
state without that transaction. With an empty input the block is idle and nothing changes (the
model's choice, log 2). -/
def Obligations.StepRunsDecodedTransaction : Prop :=
  (∀ (s : State) (t : Transaction) (rest : List Transaction) (i : Instr),
      s.takeTransaction = some (t, rest) → decodeTransaction t = .ok i →
        step s = exec i { s with input := rest }) ∧
    (∀ (s : State) (t : Transaction) (rest : List Transaction),
      s.input = t :: rest → s.holds t = false → s.takeTransaction = some (t, rest)) ∧
    ∀ s : State, s.input = [] → step s = .next s

/-- R57, R195: an APP_SEND that would push onto a full queue is held. By itself it has no step (exec
refuses QUEUE_FULL); step takes the first later transaction that is no APP_SEND and keeps the others in
order, and where there is none the state stays as it is (the form of the hold is the model's, log 6). -/
def Obligations.FullQueueHoldsAppSend : Prop :=
  ∀ (s : State) (p : Bytes) (before : List Transaction),
    s.slotFree = false → s.queueFull = true → p.length ≤ s.params.maxPayload.val →
    (∀ t ∈ before, isAppSend t = true) →
      exec (.appSend p) s = .refused .queueFull ∧
      (s.input = .command (0x01#8 :: p) :: before → step s = .next s) ∧
      ∀ (u : Transaction) (after : List Transaction) (i : Instr),
        isAppSend u = false → decodeTransaction u = .ok i →
        s.input = .command (0x01#8 :: p) :: (before ++ u :: after) →
          step s = exec i { s with input := .command (0x01#8 :: p) :: (before ++ after) }

/-- R57, R195, R194: QUEUE_FULL is a hold, not an end of the run: no step of any state is refused for it. -/
def Obligations.StepNeverRefusesForFullQueue : Prop :=
  ∀ s : State, step s ≠ .refused .queueFull

/-! ### Reset (spec/10_state.md R36, spec/70_reset_and_hazards.md R220) -/

/-- R36: what construction leaves in every element of the state, for every choice of parameters with
`WINDOW_SIZE >= 1`. -/
def Obligations.ConstructionGivesResetValues : Prop :=
  ∀ (p : Params) (s : State), 1 ≤ p.windowSize → ∃ t, exec (.reset p) s = .next t ∧
    t.lastAcked = 0 ∧ t.nextSeq = 1 ∧ t.expectedSeq = 1 ∧ t.pending = [] ∧ t.inFlight = [] ∧
    t.lastAckSent =
      [0x00#8, 0x00#8, 0x00#8, 0x00#8, 0x00#8, 0x00#8, 0x00#8, 0x00#8, 0xFE#8, 0xFF#8, 0x01#8,
        0x00#8, 0x00#8, 0x00#8, 0x00#8] ∧
    t.timerArmed = false ∧ t.params = p

/-- R220, R221: construction emits no action and sends nothing of what it discards, at any time it is
asserted. That the records of the interface start anew, that what the environment has yet to deliver
stays (log 19), and the parameters of State.reset (log 5) are the model's choices. -/
def Obligations.ConstructionEmitsNothing : Prop :=
  (∀ (p : Params) (s : State), 1 ≤ p.windowSize → ∃ t, exec (.reset p) s = .next t ∧
      t.actions = [] ∧ t.statuses = [] ∧ t.result = .nothing ∧ t.input = s.input) ∧
    ∀ s : State, exec (.reset resetParams) { s with input := [] } = .next State.reset

/-- R6, R195: a window size of 0 or less is refused, BAD_PARAMS. -/
def Obligations.NonPositiveWindowIsRefused : Prop :=
  ∀ (p : Params) (s : State), p.windowSize ≤ 0 → exec (.reset p) s = .refused .badParams

/-! ### Encodings -/

/-- R82, R70, R83: words written out from the spec's tables decode to the instruction they stand for. -/
def Obligations.WrittenOutWordsDecode : Prop :=
  decodeOn .command [0x01#8, 0x61#8] = .ok (.appSend [0x61#8]) ∧
    decodeOn .command [0x02#8, 0xFF#8] = .ok (.netRecv [0xFF#8]) ∧
    decodeOn .command [0x03#8] = .ok .timerFire ∧
    decodeOn .channel
      [0x00#8, 0x00#8, 0x00#8, 0x01#8, 0x00#8, 0x00#8, 0x00#8, 0x00#8, 0xFE#8, 0x9D#8, 0x00#8,
        0x00#8, 0x00#8, 0x00#8, 0x01#8, 0x61#8] = .ok (.frameData 1 0 0xFE9D#16 1 [0x61#8]) ∧
    decodeOn .channel
      [0x00#8, 0x00#8, 0x00#8, 0x00#8, 0x00#8, 0x00#8, 0x00#8, 0x03#8, 0xFD#8, 0xFC#8, 0x02#8,
        0x00#8, 0x00#8, 0x00#8, 0x00#8] = .ok (.frameAck 0 3 0xFDFC#16 0x02#8 0 []) ∧
    decodeOn .action [0x04#8] = .ok .timerStop

/-- R70, R72, R73, R77, R82, R83: decoding what the encoder writes gives the instruction back, for the
commands, the two frame kinds and the four actions, every operand at every value their encodings admit. -/
def Obligations.DecodeInvertsEncode : Prop :=
  ∀ (i : Instr) (port : Port) (b : Bytes),
    i.wellFormed = true → encode i = some (port, b) → decodeOn port b = .ok i

/-- The other direction: what the decoder accepts on a port is a well-formed instruction whose encoding
is exactly the bytes that were read, so no two byte strings of a port are one instruction. -/
def Obligations.EncodeInvertsDecode : Prop :=
  ∀ (i : Instr) (port : Port) (b : Bytes),
    decodeOn port b = .ok i → i.wellFormed = true ∧ encode i = some (port, b)

/-! ### Whole-machine rules -/

/-- The invariant holds after construction with any admitted parameters, at State.reset (whose
parameters are the model's choice, log 5) among them. -/
def Obligations.InvariantHoldsAfterConstruction : Prop :=
  (∀ p : Params, 1 ≤ p.windowSize → Inv (State.construct p)) ∧ Inv State.reset

/-- R6, R32, R33, R34, R37, R56, R164, R205: every step keeps the invariant, from every state that has
it, whatever the environment delivers and without R31's qualification. -/
def Obligations.EveryStepKeepsInvariant : Prop :=
  ∀ s t : State, Inv s → step s = .next t → Inv t

/-- R31, R32, R33(d): the occupancy identity holds after construction and every step keeps it, unless
the step accepts an acknowledgment with `ack_num >= next_seq`; with the window bound it gives
`|in_flight| <= WINDOW_SIZE - 1`. -/
def Obligations.EveryQualifiedStepKeepsOccupancy : Prop :=
  ∀ s t : State, Inv s → Occupancy s → s.nextAckIsOfSent → step s = .next t →
    Occupancy t ∧ (t.inFlight.length : Int) ≤ t.params.windowSize - 1

/-- The premise of EveryQualifiedStepKeepsOccupancy holds after construction, at State.reset (whose
parameters are the model's choice, log 5) among them. -/
def Obligations.OccupancyHoldsAfterConstruction : Prop :=
  (∀ p : Params, Occupancy (State.construct p)) ∧ Occupancy State.reset

/-- R138, R228: an accepted acknowledgment with `ack_num >= next_seq` empties the window before draining
and breaks the occupancy identity where nothing is queued: `last_acked` is no longer below `next_seq`. -/
def Obligations.AckOfUnsentBreaksOccupancy : Prop :=
  ∀ (n : I32) (s t : State), Inv s → Occupancy s → s.nextSeq.toInt ≤ n.toInt → s.pending = [] →
    exec (.onAck n) s = .next t → t.inFlight = [] ∧ t.lastAcked = n ∧ t.nextSeq = s.nextSeq ∧
      ¬ Occupancy t

/-- R22, R23, R25: no step but construction lowers `last_acked`, `next_seq` or `expected_seq`, in any
state. -/
def Obligations.SequenceRegistersNeverDecrease : Prop :=
  ∀ (s t : State),
    (∀ p rest, s.takeTransaction ≠ some (.reset p, rest)) → step s = .next t →
      s.lastAcked.toInt ≤ t.lastAcked.toInt ∧ s.nextSeq.toInt ≤ t.nextSeq.toInt ∧
        s.expectedSeq.toInt ≤ t.expectedSeq.toInt ∧ t.params = s.params

/-- R56, R59, R63: no step but construction changes a stored frame: an entry present before and after is
the same bytes, and every entry that is new was transmitted by that step. -/
def Obligations.StoredFramesAreNeverModified : Prop :=
  ∀ (s t : State), Inv s → (∀ p rest, s.takeTransaction ≠ some (.reset p, rest)) →
    step s = .next t → ∃ new, t.actions = s.actions ++ new ∧
      ∀ k f, Memory.get? t.inFlight k = some f →
        Memory.get? s.inFlight k = some f ∨ (Memory.get? s.inFlight k = none ∧ f ∈ transmitted new)

/-- R194: inside the spec's domain every event completes: any received byte string, any TIMER_FIRE, and
any admitted APP_SEND the queue has room for, in every state that keeps the invariant and is not at the
end of the sequence numbers; and the next state keeps the invariant again. -/
def Obligations.EventsCompleteInsideDomain : Prop :=
  ∀ (s : State) (i : Instr), Inv s →
    s.nextSeq.toInt + s.pending.length < 2147483647 → s.expectedSeq.toInt < 2147483647 →
    (∃ raw, i = .netRecv raw) ∨ i = .timerFire ∨
      (∃ p, i = .appSend p ∧ p.length ≤ s.params.maxPayload.val ∧
        (s.slotFree = true ∨ s.queueFull = false)) →
    ∃ t, exec i s = .next t ∧ Inv t

/-- R6, R229: with `WINDOW_SIZE = 1`, while no acknowledgment of an unsent number is accepted, no step
but construction ever puts a data frame in flight or assigns a sequence number: payloads stay queued. -/
def Obligations.WindowOneNeverSendsData : Prop :=
  ∀ s t : State, Inv s → Occupancy s → s.params.windowSize = 1 → s.nextAckIsOfSent →
    (∀ p rest, s.takeTransaction ≠ some (.reset p, rest)) → step s = .next t →
      t.inFlight = [] ∧ t.nextSeq = s.nextSeq ∧ t.lastAcked = s.lastAcked ∧
        s.pending <+: t.pending

/-! ### Outputs -/

/-- R83, R170, R191: the action records and the status codes are those the spec assigns, and a status is
read back from its code and from no other byte. (TIMER_START's operand `TIMEOUT` is opaque and has no byte
form: the action carries it, log 22.) -/
def Obligations.OutputCodesAsAssigned : Prop :=
  (∀ f : Bytes, (Action.tx f).record = 0x01#8 :: f) ∧
    (∀ p : Bytes, (Action.deliver p).record = 0x02#8 :: p) ∧
    (∀ d : Nat, (Action.timerStart d).record = [0x03#8]) ∧
    Action.timerStop.record = [0x04#8] ∧
    Status.ok.code = 0x00#8 ∧ Status.staleAck.code = 0x01#8 ∧ Status.corruptTruncated.code = 0x10#8 ∧
    Status.corruptChecksum.code = 0x11#8 ∧ Status.corruptLength.code = 0x12#8 ∧
    ∀ (c : Byte) (st : Status), Status.ofCode c = some st ↔ st.code = c

/-- R191, R192, R193: every event that completes puts exactly one code on the status output: 0x01 exactly
for a verified acknowledgment with `ack <= last_acked`, 0x10, 0x11 and 0x12 exactly for the three failures
of DECODE under the conditions of R191's table, and otherwise 0x00. -/
def Obligations.EveryEventReportsOneStatusCode : Prop :=
  ∀ (s t : State) (b : Bytes) (rest : List Transaction),
    s.takeTransaction = some (.command b, rest) → step s = .next t →
      ∃ c : Byte, t.statusOutput = s.statusOutput ++ [c] ∧
        (c = 0x00#8 ∨ c = 0x01#8 ∨ c = 0x10#8 ∨ c = 0x11#8 ∨ c = 0x12#8) ∧
        (c = 0x01#8 ↔ ∃ raw p, b = 0x02#8 :: raw ∧ decodeFrame raw = .ok p ∧ p.ackFlag = true ∧
          p.ack.toInt ≤ s.lastAcked.toInt) ∧
        (c = 0x10#8 ↔ ∃ raw, b = 0x02#8 :: raw ∧ raw.length < 15) ∧
        (c = 0x11#8 ↔ ∃ raw, b = 0x02#8 :: raw ∧ 15 ≤ raw.length ∧ checksum raw ≠ 0x0000#16) ∧
        (c = 0x12#8 ↔ ∃ raw, b = 0x02#8 :: raw ∧ 15 ≤ raw.length ∧ checksum raw = 0x0000#16 ∧
          ((s32be (slice raw 11 15)).toInt < 0 ∨
            (raw.length : Int) ≠ 15 + (s32be (slice raw 11 15)).toInt))
end

