-- ==== Sys2Proof/Laws/Actions.lean ====
section
/-! SUPPORT. Action lists: transmissions, deliveries and the net timer effect of lists joined. -/

namespace Sys2Proof.Machine

/-- Transmissions of joined lists. -/
theorem transmitted_append (l l' : List Action) : transmitted (l ++ l') = transmitted l ++ transmitted l' := by
  simp [transmitted]

/-- Deliveries of joined lists. -/
theorem delivered_append (l l' : List Action) : delivered (l ++ l') = delivered l ++ delivered l' := by
  simp [delivered]

/-- Removals deliver nothing. -/
theorem delivered_stops (n : Nat) : delivered (List.replicate n .timerStop) = [] := by
  simp [delivered]

/-- R181: the net effect of a list after a net effect. -/
theorem foldl_netAfter (l : List Action) (e : NetTimer) :
  l.foldl netAfter e = if netTimer l = .untouched then e else netTimer l := by
  induction l generalizing e with
  | nil => rfl
  | cons a l ih =>
    have hc : netTimer (a :: l) = if netTimer l = .untouched then netAfter .untouched a else netTimer l := ih _
    rw [hc, List.foldl_cons, ih]
    cases h : netTimer l <;> cases a <;> simp [netAfter]

/-- R181: the net effect of joined lists. -/
theorem netTimer_append (l l' : List Action) :
    netTimer (l ++ l') = if netTimer l' = .untouched then netTimer l else netTimer l' := by
  rw [netTimer, List.foldl_append]; exact foldl_netAfter l' _

/-- R181: transmissions leave the timer alone. -/
theorem netTimer_transmissions (m : Memory) : netTimer (m.map fun e => Action.tx e.2) = .untouched := by
  induction m with
  | nil => rfl
  | cons e m ih => exact ih

/-- R181: removals stop the timer, if there are any. -/
theorem netTimer_stops (n : Nat) : netTimer (List.replicate n .timerStop) = if n = 0 then .untouched else .stopped := by
  induction n with
  | zero => rfl
  | succ n ih =>
    rw [List.replicate_succ', netTimer_append]; rfl

/-- R204: a restart. -/
theorem netTimer_restart (d : Nat) : netTimer [.timerStop, .timerStart d] = .restarted := rfl

end Sys2Proof.Machine
end

