-- ==== Sys2Proof/Laws/Bytes.lean ====
section
/-! SUPPORT. Field assembly: the codec's byte forms and their inverses. -/

namespace Sys2Proof

@[simp] theorem natBE_two (a b : Byte) : natBE [a, b] = a.toNat * 256 + b.toNat := by
  simp [natBE]

@[simp] theorem natBE_four (a b c d : Byte) :
    natBE [a, b, c, d] = ((a.toNat * 256 + b.toNat) * 256 + c.toNat) * 256 + d.toNat := by
  simp [natBE]

@[simp] theorem be16_length (v : U16) : (be16 v).length = 2 := rfl
@[simp] theorem be32_length (v : I32) : (be32 v).length = 4 := rfl

/-- R72: a 16-bit field reads back. -/
@[simp] theorem u16be_be16 (v : U16) : u16be (be16 v) = v := by
  apply BitVec.eq_of_toNat_eq
  have := v.isLt
  simp [u16be, be16, BitVec.extractLsb'_toNat, Nat.shiftRight_eq_div_pow]
  omega

/-- R72, R73: a 32-bit field reads back. -/
@[simp] theorem s32be_be32 (v : I32) : s32be (be32 v) = v := by
  apply BitVec.eq_of_toNat_eq
  have := v.isLt
  simp [s32be, be32, BitVec.extractLsb'_toNat, Nat.shiftRight_eq_div_pow]
  omega

/-- R72: two bytes are their own field. -/
theorem be16_u16be (a b : Byte) : be16 (u16be [a, b]) = [a, b] := by
  have ha := a.isLt
  have hb := b.isLt
  simp only [be16, u16be, natBE_two, List.cons.injEq, and_true]
  constructor <;> apply BitVec.eq_of_toNat_eq <;>
    simp [BitVec.extractLsb'_toNat, Nat.shiftRight_eq_div_pow] <;> omega

theorem be32_s32be (a b c d : Byte) : be32 (s32be [a, b, c, d]) = [a, b, c, d] := by
  have ha := a.isLt
  have hb := b.isLt
  have hc := c.isLt
  have hd := d.isLt
  simp only [be32, s32be, natBE_four, List.cons.injEq, and_true]
  refine ⟨?_, ?_, ?_, ?_⟩ <;> apply BitVec.eq_of_toNat_eq <;>
    simp [BitVec.extractLsb'_toNat, Nat.shiftRight_eq_div_pow] <;> omega

/-- R70: the header is 15 bytes. -/
@[simp] theorem headerBytes_length (seq ack : I32) (c : U16) (fb : Byte) (len : I32) :
    (headerBytes seq ack c fb len).length = 15 := rfl

/-- R70: the fields of a frame stand at their offsets. -/
theorem headerBytes_slices (seq ack : I32) (c : U16) (fb : Byte) (len : I32) (p : Bytes) :
    slice (headerBytes seq ack c fb len ++ p) 0 4 = be32 seq ∧
      slice (headerBytes seq ack c fb len ++ p) 4 8 = be32 ack ∧
      slice (headerBytes seq ack c fb len ++ p) 8 10 = be16 c ∧
      byteAt (headerBytes seq ack c fb len ++ p) 10 = fb ∧
      slice (headerBytes seq ack c fb len ++ p) 11 15 = be32 len ∧
      (headerBytes seq ack c fb len ++ p).drop 15 = p :=
  ⟨rfl, rfl, rfl, rfl, rfl, rfl⟩

/-- A byte string of at least a header's length, byte by byte. -/
theorem exists_header_of_length {b : Bytes} (h : 15 ≤ b.length) :
    ∃ (seq ack : I32) (c : U16) (fb : Byte) (len : I32) (p : Bytes),
      b = headerBytes seq ack c fb len ++ p := by
  match b, h with
  | s3 :: s2 :: s1 :: s0 :: a3 :: a2 :: a1 :: a0 :: c1 :: c0 :: fb :: l3 :: l2 :: l1 :: l0 :: p, _ =>
    refine ⟨s32be [s3, s2, s1, s0], s32be [a3, a2, a1, a0], u16be [c1, c0], fb,
      s32be [l3, l2, l1, l0], p, ?_⟩
    simp only [headerBytes, be32_s32be, be16_u16be, List.cons_append, List.nil_append]

/-- R73: a length that fits the signed field is its value. -/
theorem toInt_ofNat_of_le {n : Nat} (h : n ≤ 2147483647) : (BitVec.ofNat 32 n).toInt = n := by
  rw [BitVec.toInt_eq_toNat_of_lt (by simp; omega)]
  simp; omega

end Sys2Proof
end

