-- ==== Sys2Proof/Laws/Checksum.lean ====
section
/-! SUPPORT. The checksum's arithmetic, as numbers. -/

namespace Sys2Proof.Machine

/-- R101: one addition with its fold; the fold leaves at most 65535, so nothing is cut off. -/
theorem addFold_toNat (s w : U16) :
    (addFold s w).toNat = (s.toNat + w.toNat) % 65536 + (s.toNat + w.toNat) / 65536 := by
  have hs := s.isLt
  have hw := w.isLt
  simp only [addFold, BitVec.toNat_ofNat]
  omega

/-- R101: a sum that fits is not folded. -/
theorem addFold_toNat_of_lt {s w : U16} (h : s.toNat + w.toNat < 65536) :
    (addFold s w).toNat = s.toNat + w.toNat := by
  rw [addFold_toNat]; omega

/-- R102. -/
theorem checksum_toNat (b : Bytes) : (checksum b).toNat = 65535 - (ocsum b).toNat := by
  simp [checksum, BitVec.toNat_not]

/-- R106. -/
theorem verify_eq_true (b : Bytes) : verify b = true ↔ checksum b = 0x0000#16 := by
  simp [verify]

@[simp] theorem words_nil : words [] = [] := rfl
@[simp] theorem words_cons (hi lo : Byte) (rest : Bytes) :
    words (hi :: lo :: rest) = u16be [hi, lo] :: words rest := rfl

end Sys2Proof.Machine
end

