-- ==== Sys2Proof/Laws/Codec.lean ====
section
/-! SUPPORT. Frames: their sums, what DECODE and the channel decoder read of one, and a frame written
byte by byte. -/

namespace Sys2Proof.Machine

/-- R100, R103: an even-length string sums to its total. -/
theorem words_sum : ∀ (b : Bytes), b.length % 2 = 0 → ((words b).map BitVec.toNat).sum = wordTotal b
  | [], _ => rfl
  | [x], h => by simp at h
  | hi :: lo :: r, h => by
    have := words_sum r (by simp at h; omega)
    have h1 := hi.isLt; have h2 := lo.isLt
    simp [wordTotal, this, u16be, natBE]
    omega

/-- R100, R53: the pad byte adds nothing to the total. -/
theorem wordTotal_pad : ∀ (b : Bytes), b.length % 2 = 1 → wordTotal (b ++ [0x00#8]) = wordTotal b
  | [], h => by simp at h
  | [x], _ => by simp [wordTotal]
  | hi :: lo :: r, h => by
    have := wordTotal_pad r (by simp at h; omega)
    simp [wordTotal, this]

/-- R70, R104: the checksum field adds its value to the total. -/
theorem wordTotal_header (seq ack : I32) (c : U16) (fb : Byte) (len : I32) (p : Bytes) :
    wordTotal (headerBytes seq ack c fb len ++ p) = wordTotal (headerBytes seq ack 0#16 fb len ++ p) + c.toNat := by
  have hc := c.isLt
  have e : (BitVec.extractLsb' 8 8 c).toNat * 256 + (BitVec.extractLsb' 0 8 c).toNat = c.toNat := by
    rw [BitVec.extractLsb'_toNat, BitVec.extractLsb'_toNat, Nat.shiftRight_eq_div_pow, Nat.shiftRight_eq_div_pow]
    omega
  have e0 : (BitVec.extractLsb' 8 8 0#16).toNat * 256 + (BitVec.extractLsb' 0 8 0#16).toNat = 0 := by decide
  have key : ∀ x y : Byte, wordTotal (be32 seq ++ be32 ack ++ [x, y] ++ [fb] ++ be32 len ++ p) =
      wordTotal (be32 seq ++ be32 ack ++ [0#8, 0#8] ++ [fb] ++ be32 len ++ p) + (x.toNat * 256 + y.toNat) := by
    intro x y
    generalize hA : be32 seq = A
    generalize hB : be32 ack = B
    have hA' : A.length = 4 := by rw [← hA]; rfl
    have hB' : B.length = 4 := by rw [← hB]; rfl
    match A, B, hA', hB' with
    | [a1, a2, a3, a4], [b1, b2, b3, b4], _, _ =>
      simp only [wordTotal, List.cons_append, List.nil_append, BitVec.toNat_ofNat]
      generalize wordTotal _ = W
      clear e e0 hc hA' hB'
      simp only [Nat.add_assoc, Nat.add_left_comm, Nat.add_comm, Nat.zero_mul, Nat.zero_mod, Nat.add_zero]
  rw [headerBytes, headerBytes, be16, be16, key, key (BitVec.extractLsb' 8 8 0#16), e, e0, Nat.add_zero]

/-- R77: the decoder reads the flag the encoder wrote. -/
theorem flagOf_flagByte (f : Bool) : flagOf (flagByte f) = f := by cases f <;> rfl

/-- R107: everything DECODE can answer for a string of at least a header. -/
theorem decodeFrame_header (seq ack : I32) (c : U16) (fb : Byte) (len : I32) (p : Bytes) :
    decodeFrame (headerBytes seq ack c fb len ++ p) =
      if checksum (headerBytes seq ack c fb len ++ p) ≠ 0#16 then .error .checksum
      else if len.toInt = p.length then
        .ok { seq := seq, ack := ack, checksum := c, ackFlag := flagOf fb, payloadLength := len, payload := p }
      else .error .length := by
  obtain ⟨e1, e2, e3, e4, e5, e6⟩ := headerBytes_slices seq ack c fb len p
  unfold decodeFrame
  have hl : (headerBytes seq ack c fb len ++ p).length = 15 + p.length := by simp
  rw [if_neg (by rw [hl]; simp [hdrLen])]
  split
  · rfl
  · rename_i h
    simp only [e1, e2, e3, e4, e5, s32be_be32, u16be_be16, hl, hdrLen]
    by_cases hq : len.toInt = p.length
    · have hp : slice (headerBytes seq ack c fb len ++ p) 15 (15 + len.toInt.toNat) = p := by
        rw [slice, e6, hq]; simp
      rw [if_neg (by rw [hq]; simp), if_pos hq, hp]
    · rw [if_pos (by omega), if_neg hq]

/-- R70: the channel decoder on a string of at least a header. -/
theorem decodeChannel_header (seq ack : I32) (c : U16) (fb : Byte) (len : I32) (p : Bytes) :
    decodeChannel (headerBytes seq ack c fb len ++ p) =
      if len.toInt = p.length then
        .ok (if fb = 0#8 then .frameData seq ack c len p else .frameAck seq ack c fb len p)
      else .error .frameLength := by
  obtain ⟨e1, e2, e3, e4, e5, e6⟩ := headerBytes_slices seq ack c fb len p
  unfold decodeChannel
  have hl : (headerBytes seq ack c fb len ++ p).length = 15 + p.length := by simp
  rw [if_neg (by rw [hl]; simp [hdrLen])]
  simp only [e1, e2, e3, e4, e5, s32be_be32, u16be_be16, hl, hdrLen, e6]
  by_cases hq : len.toInt = p.length
  · rw [if_neg (by rw [hq]; simp), if_pos hq]; split <;> rfl
  · rw [if_pos (by omega), if_neg hq]

/-- R7: two bytes concatenated are the field they assemble. -/
theorem be16_append (a b : Byte) : be16 (a ++ b) = [a, b] := by
  have e : (a ++ b : U16) = u16be [a, b] := by
    apply BitVec.eq_of_toNat_eq
    have hb := b.isLt
    have ha := a.isLt
    have h1 : (a ++ b : U16).toNat = a.toNat <<< 8 ||| b.toNat := BitVec.toNat_append a b
    rw [h1, ← Nat.shiftLeft_add_eq_or_of_lt hb, Nat.shiftLeft_eq]
    simp [u16be]; omega
  rw [e, be16_u16be]

/-- R7: four bytes concatenated are the field they assemble. -/
theorem be32_append (a b c d : Byte) : be32 (a ++ b ++ c ++ d) = [a, b, c, d] := by
  have e : (a ++ b ++ c ++ d : I32) = s32be [a, b, c, d] := by
    apply BitVec.eq_of_toNat_eq
    have hb := b.isLt
    have ha := a.isLt
    have hc := c.isLt
    have hd := d.isLt
    have h1 : (a ++ b ++ c ++ d : I32).toNat = (a ++ b ++ c).toNat <<< 8 ||| d.toNat := BitVec.toNat_append _ d
    have h2 : (a ++ b ++ c).toNat = (a ++ b).toNat <<< 8 ||| c.toNat := BitVec.toNat_append _ c
    have h3 : (a ++ b).toNat = a.toNat <<< 8 ||| b.toNat := BitVec.toNat_append a b
    rw [h1, ← Nat.shiftLeft_add_eq_or_of_lt hd, Nat.shiftLeft_eq, h2, ← Nat.shiftLeft_add_eq_or_of_lt hc, Nat.shiftLeft_eq, h3, ← Nat.shiftLeft_add_eq_or_of_lt hb, Nat.shiftLeft_eq]
    simp [s32be]; omega
  rw [e, be32_s32be]

/-- R70: fifteen bytes and a payload are a header and a payload. -/
theorem bytes_eq_header (s3 s2 s1 s0 a3 a2 a1 a0 c1 c0 fl l3 l2 l1 l0 : Byte) (p : Bytes) :
    [s3, s2, s1, s0, a3, a2, a1, a0, c1, c0, fl, l3, l2, l1, l0] ++ p =
      headerBytes (s3 ++ s2 ++ s1 ++ s0) (a3 ++ a2 ++ a1 ++ a0) (c1 ++ c0) fl (l3 ++ l2 ++ l1 ++ l0) ++ p := by
  rw [headerBytes, be32_append, be32_append, be32_append, be16_append]; rfl

/-- R82: a reserved code. -/
theorem decodeCommand_reserved (c : Byte) (operand : Bytes) (h1 : c ≠ 0x01#8) (h2 : c ≠ 0x02#8) (h3 : c ≠ 0x03#8) :
    decodeCommand (c :: operand) = .ok (.cmdReserved c operand) := by
  have e1 : ¬ c = appSendCode := h1
  have e2 : ¬ c = netRecvCode := h2
  have e3 : ¬ c = timerFireCode := h3
  simp only [decodeCommand, e1, e2, e3, if_false]

/-- R107, R198: DECODE by cases: the three failures in their order, and what is true where it succeeds. -/
theorem decodeFrame_cases (raw : Bytes) :
    (raw.length < 15 ∧ decodeFrame raw = .error .truncated) ∨
      (15 ≤ raw.length ∧ checksum raw ≠ 0x0000#16 ∧ decodeFrame raw = .error .checksum) ∨
      (15 ≤ raw.length ∧ checksum raw = 0x0000#16 ∧
        ((s32be (slice raw 11 15)).toInt < 0 ∨
          (raw.length : Int) ≠ 15 + (s32be (slice raw 11 15)).toInt) ∧
        decodeFrame raw = .error .length) ∨
      (15 ≤ raw.length ∧ checksum raw = 0x0000#16 ∧
        ¬ ((s32be (slice raw 11 15)).toInt < 0 ∨
          (raw.length : Int) ≠ 15 + (s32be (slice raw 11 15)).toInt) ∧
        ∃ p, decodeFrame raw = .ok p) := by
  unfold decodeFrame hdrLen
  by_cases h1 : raw.length < 15
  · exact .inl ⟨h1, if_pos h1⟩
  · have hle : 15 ≤ raw.length := by omega
    rw [if_neg h1]
    by_cases h2 : checksum raw = 0x0000#16
    · rw [if_neg (not_not_intro h2)]
      by_cases h3 : (s32be (slice raw 11 15)).toInt < 0 ∨
          (raw.length : Int) ≠ 15 + (s32be (slice raw 11 15)).toInt
      · exact .inr (.inr (.inl ⟨hle, h2, h3, if_pos h3⟩))
      · exact .inr (.inr (.inr ⟨hle, h2, h3, _, if_neg h3⟩))
    · exact .inr (.inl ⟨hle, h2, if_pos h2⟩)

end Sys2Proof.Machine
end

