-- ==== Sys2Proof/Laws/Memory.lean ====
section
/-! SUPPORT. The frame store: reads after writes, and that every operation keeps the canonical form. -/

namespace Sys2Proof.Machine

@[simp] theorem Memory.get?_insert_self (m : Memory) (k : I32) (f : Bytes) :
    Memory.get? (Memory.insert m k f) k = some f := by
  induction m with
  | nil => simp [Memory.insert, Memory.get?]
  | cons e rest ih =>
    obtain ⟨k', f'⟩ := e
    by_cases h1 : k.toInt < k'.toInt
    · simp [Memory.insert, h1, Memory.get?]
    · by_cases h2 : k = k'
      · simp [Memory.insert, h2, Memory.get?]
      · simp [Memory.insert, h1, h2, Memory.get?, Ne.symm h2, ih]

theorem Memory.get?_insert_other (m : Memory) {k k2 : I32} (f : Bytes) (h : k2 ≠ k) :
    Memory.get? (Memory.insert m k f) k2 = Memory.get? m k2 := by
  induction m with
  | nil => simp [Memory.insert, Memory.get?, h.symm]
  | cons e rest ih =>
    obtain ⟨k', f'⟩ := e
    by_cases h1 : k.toInt < k'.toInt
    · simp [Memory.insert, h1, Memory.get?, h.symm]
    · by_cases h2 : k = k'
      · subst h2; simp [Memory.insert, Memory.get?, h.symm]
      · simp [Memory.insert, h1, h2, Memory.get?, ih]

/-- What is in the store after an insertion was in it before, or is what was inserted. -/
theorem Memory.mem_insert {m : Memory} {k : I32} {f : Bytes} {e : I32 × Bytes}
    (h : e ∈ Memory.insert m k f) : e = (k, f) ∨ e ∈ m := by
  induction m with
  | nil => simpa [Memory.insert] using h
  | cons e' rest ih =>
    obtain ⟨k', f'⟩ := e'
    by_cases h1 : k.toInt < k'.toInt
    · simpa [Memory.insert, h1] using h
    · by_cases h2 : k = k'
      · subst h2
        simp only [Memory.insert, h1, if_false, if_true, List.mem_cons] at h ⊢
        exact h.imp id .inr
      · simp only [Memory.insert, h1, h2, if_false, List.mem_cons] at h ⊢
        rcases h with h | h
        · exact .inr (.inl h)
        · exact (ih h).imp id .inr

/-- R56: inserting keeps the canonical form. -/
theorem Memory.insert_wf {m : Memory} (h : Memory.wf m) (k : I32) (f : Bytes) :
    Memory.wf (Memory.insert m k f) := by
  induction m with
  | nil => simp [Memory.insert, Memory.wf]
  | cons e rest ih =>
    obtain ⟨k', f'⟩ := e
    rw [Memory.wf, List.pairwise_cons] at h
    by_cases h1 : k.toInt < k'.toInt
    · simp only [Memory.insert, h1, if_true, Memory.wf, List.pairwise_cons, List.mem_cons]
      refine ⟨?_, h⟩
      rintro e (rfl | he)
      · exact h1
      · exact h1.trans (h.1 e he)
    · by_cases h2 : k = k'
      · subst h2
        simpa [Memory.insert, Memory.wf] using h
      · simp only [Memory.insert, h1, h2, if_false, Memory.wf, List.pairwise_cons]
        refine ⟨fun e he => ?_, ih h.2⟩
        rcases Memory.mem_insert he with rfl | he
        · have : k'.toInt ≠ k.toInt := fun hh => h2 (BitVec.eq_of_toInt_eq hh).symm
          show k'.toInt < k.toInt
          omega
        · exact h.1 e he

/-- R56: removing entries keeps the canonical form. -/
theorem Memory.filter_wf {m : Memory} (h : Memory.wf m) (q : I32 × Bytes → Bool) :
    Memory.wf (m.filter q) := List.Pairwise.filter q h

theorem Memory.delete_wf {m : Memory} (h : Memory.wf m) (k : I32) : Memory.wf (Memory.delete m k) :=
  Memory.filter_wf h _

/-- R134: inserting one after the other keeps the canonical form. -/
theorem Memory.insertAll_wf {m : Memory} (h : Memory.wf m) (entries : Memory) :
    Memory.wf (m.insertAll entries) := by
  induction entries generalizing m with
  | nil => exact h
  | cons e rest ih => exact ih (Memory.insert_wf h e.1 e.2)

/-- R135: what an acknowledgment leaves is in canonical form. -/
theorem Memory.unacked_wf {m : Memory} (h : Memory.wf m) (lastAcked n : I32) :
    Memory.wf (m.unacked lastAcked n) := Memory.filter_wf h _

/-- R36: the store is in canonical form after construction, at State.reset among them. -/
theorem construct_wf (p : Params) : Memory.wf (State.construct p).inFlight := List.Pairwise.nil

/-- A key above every key of the store goes to its end. -/
theorem Memory.insert_largest {m : Memory} {k : I32} (f : Bytes)
    (h : ∀ e ∈ m, e.1.toInt < k.toInt) : Memory.insert m k f = m ++ [(k, f)] := by
  induction m with
  | nil => rfl
  | cons e rest ih =>
    obtain ⟨k', f'⟩ := e
    have hk := h (k', f') (by simp)
    simp only at hk
    have h1 : ¬ k.toInt < k'.toInt := by omega
    have h2 : k ≠ k' := by rintro rfl; omega
    simp [Memory.insert, h1, h2, ih fun e he => h e (by simp [he])]

/-- What a read finds is an entry of the store. -/
theorem Memory.mem_of_get? {m : Memory} {k : I32} {f : Bytes} (h : Memory.get? m k = some f) :
    (k, f) ∈ m := by
  induction m with
  | nil => simp [Memory.get?] at h
  | cons e rest ih =>
    obtain ⟨k', f'⟩ := e
    by_cases h1 : k' = k
    · simp_all [Memory.get?]
    · simp only [Memory.get?, h1, if_false] at h
      exact List.mem_cons_of_mem _ (ih h)

/-- In canonical form every entry is what a read of its key finds. -/
theorem Memory.get?_of_mem {m : Memory} (hw : Memory.wf m) {k : I32} {f : Bytes} (h : (k, f) ∈ m) :
    Memory.get? m k = some f := by
  induction m with
  | nil => simp at h
  | cons e rest ih =>
    obtain ⟨k', f'⟩ := e
    rw [Memory.wf, List.pairwise_cons] at hw
    rcases List.mem_cons.1 h with h | h
    · simp_all [Memory.get?]
    · have hlt := hw.1 _ h
      have h1 : k' ≠ k := by rintro rfl; simp at hlt
      simp [Memory.get?, h1, ih hw.2 h]

end Sys2Proof.Machine
end

