-- ==== Sys2Proof/Laws/State.lean ====
section
/-! SUPPORT. One lemma per field per update of the state, each true by definition. -/

namespace Sys2Proof.Machine

@[simp] theorem State.emit_params (a : Action) (s : State) : (s.emit a).params = s.params := rfl
@[simp] theorem State.emit_lastAcked (a : Action) (s : State) : (s.emit a).lastAcked = s.lastAcked := rfl
@[simp] theorem State.emit_nextSeq (a : Action) (s : State) : (s.emit a).nextSeq = s.nextSeq := rfl
@[simp] theorem State.emit_expectedSeq (a : Action) (s : State) : (s.emit a).expectedSeq = s.expectedSeq := rfl
@[simp] theorem State.emit_pending (a : Action) (s : State) : (s.emit a).pending = s.pending := rfl
@[simp] theorem State.emit_inFlight (a : Action) (s : State) : (s.emit a).inFlight = s.inFlight := rfl
@[simp] theorem State.emit_lastAckSent (a : Action) (s : State) : (s.emit a).lastAckSent = s.lastAckSent := rfl
@[simp] theorem State.emit_timerArmed (a : Action) (s : State) : (s.emit a).timerArmed = armedAfter a s.timerArmed := rfl
@[simp] theorem State.emit_input (a : Action) (s : State) : (s.emit a).input = s.input := rfl
@[simp] theorem State.emit_actions (a : Action) (s : State) : (s.emit a).actions = s.actions ++ [a] := rfl
@[simp] theorem State.emit_statuses (a : Action) (s : State) : (s.emit a).statuses = s.statuses := rfl
@[simp] theorem State.emit_result (a : Action) (s : State) : (s.emit a).result = s.result := rfl

@[simp] theorem State.startTimer_params (s : State) : s.startTimer.params = s.params := rfl
@[simp] theorem State.startTimer_lastAcked (s : State) : s.startTimer.lastAcked = s.lastAcked := rfl
@[simp] theorem State.startTimer_nextSeq (s : State) : s.startTimer.nextSeq = s.nextSeq := rfl
@[simp] theorem State.startTimer_expectedSeq (s : State) : s.startTimer.expectedSeq = s.expectedSeq := rfl
@[simp] theorem State.startTimer_pending (s : State) : s.startTimer.pending = s.pending := rfl
@[simp] theorem State.startTimer_inFlight (s : State) : s.startTimer.inFlight = s.inFlight := rfl
@[simp] theorem State.startTimer_lastAckSent (s : State) : s.startTimer.lastAckSent = s.lastAckSent := rfl
@[simp] theorem State.startTimer_timerArmed (s : State) : s.startTimer.timerArmed = true := rfl
@[simp] theorem State.startTimer_input (s : State) : s.startTimer.input = s.input := rfl
@[simp] theorem State.startTimer_actions (s : State) : s.startTimer.actions = s.actions ++ [.timerStart s.params.timeout] := rfl
@[simp] theorem State.startTimer_statuses (s : State) : s.startTimer.statuses = s.statuses := rfl
@[simp] theorem State.startTimer_result (s : State) : s.startTimer.result = s.result := rfl

@[simp] theorem State.setStatus_params (st : Status) (s : State) : (s.setStatus st).params = s.params := rfl
@[simp] theorem State.setStatus_lastAcked (st : Status) (s : State) : (s.setStatus st).lastAcked = s.lastAcked := rfl
@[simp] theorem State.setStatus_nextSeq (st : Status) (s : State) : (s.setStatus st).nextSeq = s.nextSeq := rfl
@[simp] theorem State.setStatus_expectedSeq (st : Status) (s : State) : (s.setStatus st).expectedSeq = s.expectedSeq := rfl
@[simp] theorem State.setStatus_pending (st : Status) (s : State) : (s.setStatus st).pending = s.pending := rfl
@[simp] theorem State.setStatus_inFlight (st : Status) (s : State) : (s.setStatus st).inFlight = s.inFlight := rfl
@[simp] theorem State.setStatus_lastAckSent (st : Status) (s : State) : (s.setStatus st).lastAckSent = s.lastAckSent := rfl
@[simp] theorem State.setStatus_timerArmed (st : Status) (s : State) : (s.setStatus st).timerArmed = s.timerArmed := rfl
@[simp] theorem State.setStatus_input (st : Status) (s : State) : (s.setStatus st).input = s.input := rfl
@[simp] theorem State.setStatus_actions (st : Status) (s : State) : (s.setStatus st).actions = s.actions := rfl
@[simp] theorem State.setStatus_statuses (st : Status) (s : State) : (s.setStatus st).statuses = s.statuses ++ [st] := rfl
@[simp] theorem State.setStatus_result (st : Status) (s : State) : (s.setStatus st).result = s.result := rfl

@[simp] theorem State.setResult_params (r : Result) (s : State) : (s.setResult r).params = s.params := rfl
@[simp] theorem State.setResult_lastAcked (r : Result) (s : State) : (s.setResult r).lastAcked = s.lastAcked := rfl
@[simp] theorem State.setResult_nextSeq (r : Result) (s : State) : (s.setResult r).nextSeq = s.nextSeq := rfl
@[simp] theorem State.setResult_expectedSeq (r : Result) (s : State) : (s.setResult r).expectedSeq = s.expectedSeq := rfl
@[simp] theorem State.setResult_pending (r : Result) (s : State) : (s.setResult r).pending = s.pending := rfl
@[simp] theorem State.setResult_inFlight (r : Result) (s : State) : (s.setResult r).inFlight = s.inFlight := rfl
@[simp] theorem State.setResult_lastAckSent (r : Result) (s : State) : (s.setResult r).lastAckSent = s.lastAckSent := rfl
@[simp] theorem State.setResult_timerArmed (r : Result) (s : State) : (s.setResult r).timerArmed = s.timerArmed := rfl
@[simp] theorem State.setResult_input (r : Result) (s : State) : (s.setResult r).input = s.input := rfl
@[simp] theorem State.setResult_actions (r : Result) (s : State) : (s.setResult r).actions = s.actions := rfl
@[simp] theorem State.setResult_statuses (r : Result) (s : State) : (s.setResult r).statuses = s.statuses := rfl
@[simp] theorem State.setResult_result (r : Result) (s : State) : (s.setResult r).result = r := rfl

@[simp] theorem State.resendLastAck_params (s : State) : s.resendLastAck.params = s.params := rfl
@[simp] theorem State.resendLastAck_lastAcked (s : State) : s.resendLastAck.lastAcked = s.lastAcked := rfl
@[simp] theorem State.resendLastAck_nextSeq (s : State) : s.resendLastAck.nextSeq = s.nextSeq := rfl
@[simp] theorem State.resendLastAck_expectedSeq (s : State) : s.resendLastAck.expectedSeq = s.expectedSeq := rfl
@[simp] theorem State.resendLastAck_pending (s : State) : s.resendLastAck.pending = s.pending := rfl
@[simp] theorem State.resendLastAck_inFlight (s : State) : s.resendLastAck.inFlight = s.inFlight := rfl
@[simp] theorem State.resendLastAck_lastAckSent (s : State) : s.resendLastAck.lastAckSent = s.lastAckSent := rfl
@[simp] theorem State.resendLastAck_timerArmed (s : State) : s.resendLastAck.timerArmed = s.timerArmed := rfl
@[simp] theorem State.resendLastAck_input (s : State) : s.resendLastAck.input = s.input := rfl
@[simp] theorem State.resendLastAck_actions (s : State) : s.resendLastAck.actions = s.actions ++ [.tx s.lastAckSent] := rfl
@[simp] theorem State.resendLastAck_statuses (s : State) : s.resendLastAck.statuses = s.statuses := rfl
@[simp] theorem State.resendLastAck_result (s : State) : s.resendLastAck.result = s.result := rfl

@[simp] theorem State.restartTimer_params (s : State) : s.restartTimer.params = s.params := rfl
@[simp] theorem State.restartTimer_lastAcked (s : State) : s.restartTimer.lastAcked = s.lastAcked := rfl
@[simp] theorem State.restartTimer_nextSeq (s : State) : s.restartTimer.nextSeq = s.nextSeq := rfl
@[simp] theorem State.restartTimer_expectedSeq (s : State) : s.restartTimer.expectedSeq = s.expectedSeq := rfl
@[simp] theorem State.restartTimer_pending (s : State) : s.restartTimer.pending = s.pending := rfl
@[simp] theorem State.restartTimer_inFlight (s : State) : s.restartTimer.inFlight = s.inFlight := rfl
@[simp] theorem State.restartTimer_lastAckSent (s : State) : s.restartTimer.lastAckSent = s.lastAckSent := rfl
@[simp] theorem State.restartTimer_timerArmed (s : State) : s.restartTimer.timerArmed = true := rfl
@[simp] theorem State.restartTimer_input (s : State) : s.restartTimer.input = s.input := rfl
@[simp] theorem State.restartTimer_actions (s : State) : s.restartTimer.actions = s.actions ++ [.timerStop, .timerStart s.params.timeout] := by simp [State.restartTimer]
@[simp] theorem State.restartTimer_statuses (s : State) : s.restartTimer.statuses = s.statuses := rfl
@[simp] theorem State.restartTimer_result (s : State) : s.restartTimer.result = s.result := rfl

@[simp] theorem State.absorbCorruption_params (k : CorruptionKind) (s : State) : (s.absorbCorruption k).params = s.params := rfl
@[simp] theorem State.absorbCorruption_lastAcked (k : CorruptionKind) (s : State) : (s.absorbCorruption k).lastAcked = s.lastAcked := rfl
@[simp] theorem State.absorbCorruption_nextSeq (k : CorruptionKind) (s : State) : (s.absorbCorruption k).nextSeq = s.nextSeq := rfl
@[simp] theorem State.absorbCorruption_expectedSeq (k : CorruptionKind) (s : State) : (s.absorbCorruption k).expectedSeq = s.expectedSeq := rfl
@[simp] theorem State.absorbCorruption_pending (k : CorruptionKind) (s : State) : (s.absorbCorruption k).pending = s.pending := rfl
@[simp] theorem State.absorbCorruption_inFlight (k : CorruptionKind) (s : State) : (s.absorbCorruption k).inFlight = s.inFlight := rfl
@[simp] theorem State.absorbCorruption_lastAckSent (k : CorruptionKind) (s : State) : (s.absorbCorruption k).lastAckSent = s.lastAckSent := rfl
@[simp] theorem State.absorbCorruption_timerArmed (k : CorruptionKind) (s : State) : (s.absorbCorruption k).timerArmed = s.timerArmed := rfl
@[simp] theorem State.absorbCorruption_input (k : CorruptionKind) (s : State) : (s.absorbCorruption k).input = s.input := rfl
@[simp] theorem State.absorbCorruption_actions (k : CorruptionKind) (s : State) : (s.absorbCorruption k).actions = s.actions ++ [.tx s.lastAckSent] := rfl
@[simp] theorem State.absorbCorruption_statuses (k : CorruptionKind) (s : State) : (s.absorbCorruption k).statuses = s.statuses ++ [statusOf k] := rfl
@[simp] theorem State.absorbCorruption_result (k : CorruptionKind) (s : State) : (s.absorbCorruption k).result = s.result := rfl

@[simp] theorem armedAfter_tx (f : Bytes) (b : Bool) : armedAfter (.tx f) b = b := rfl
@[simp] theorem armedAfter_deliver (p : Bytes) (b : Bool) : armedAfter (.deliver p) b = b := rfl
@[simp] theorem armedAfter_timerStart (d : Nat) (b : Bool) : armedAfter (.timerStart d) b = true := rfl
@[simp] theorem armedAfter_timerStop (b : Bool) : armedAfter .timerStop b = false := rfl

/-- R170: what is emitted stands last on the action output. -/
@[simp] theorem State.emit_actionOutput (a : Action) (s : State) :
    (s.emit a).actionOutput = s.actionOutput ++ [a.record] := by simp [State.actionOutput]

/-- R170, R191: what is reported stands last on the status output. -/
@[simp] theorem State.setStatus_statusOutput (st : Status) (s : State) :
    (s.setStatus st).statusOutput = s.statusOutput ++ [st.code] := by simp [State.statusOutput]

end Sys2Proof.Machine
end

