-- ==== Sys2Proof/Laws/Ops.lean ====
section
/-! SUPPORT. What each shared operation of Machine/Ops.lean can do. -/

namespace Sys2Proof.Machine

@[simp] theorem andThen_next (s : State) (f : State → Out) : andThen (.next s) f = f s := rfl
@[simp] theorem andThen_fault (r : Fault) (f : State → Out) : andThen (.fault r) f = .fault r := rfl
@[simp] theorem andThen_refused (r : Refusal) (f : State → Out) :
    andThen (.refused r) f = .refused r := rfl

/-- A sequence answers a next state only through a next state of its first part. -/
theorem andThen_eq_next {o : Out} {f : State → Out} {t : State} (h : andThen o f = .next t) :
    ∃ s, o = .next s ∧ f s = .next t := by
  cases o with
  | next s => exact ⟨s, rfl, h⟩
  | fault r => simp at h
  | refused r => simp at h

/-- R37: an increment inside the I32 range. -/
theorem incSeq_of_lt {v : I32} (h : v.toInt < 2147483647) : incSeq v = some (v + 1) := by
  have : v.toInt ≠ i32Max := by simp only [i32Max]; omega
  simp [incSeq, this]

/-- R37: at the top there is no increment. -/
theorem incSeq_of_max {v : I32} (h : v.toInt = 2147483647) : incSeq v = none := by
  simp [incSeq, h]

/-- R37: below the top, the increment is plus 1 as a number. -/
theorem toInt_add_one {v : I32} (h : v.toInt < 2147483647) : (v + 1).toInt = v.toInt + 1 := by
  have h1 : (1 : I32).toInt = 1 := by decide
  have h2 := BitVec.le_toInt v
  rw [BitVec.toInt_add, h1, Int.bmod_eq_of_le] <;> omega

/-- R37: inside the range, adding a count is adding it as a number. -/
theorem toInt_add_ofNat {v : I32} {k : Nat} (h : v.toInt + k ≤ 2147483647) :
    (v + BitVec.ofNat 32 k).toInt = v.toInt + k := by
  have h2 := BitVec.le_toInt v
  induction k with
  | zero => simp
  | succ n ih =>
    have e : v + BitVec.ofNat 32 (n + 1) = (v + BitVec.ofNat 32 n) + 1 := by
      rw [BitVec.add_assoc]; congr 1
      apply BitVec.eq_of_toNat_eq; simp
    rw [e, toInt_add_one (by rw [ih (by omega)]; omega), ih (by omega)]
    push_cast; omega

theorem incSeq_eq_some {v w : I32} (h : incSeq v = some w) :
    v.toInt < 2147483647 ∧ w = v + 1 := by
  by_cases hm : v.toInt = i32Max
  · simp [incSeq, hm] at h
  · have := BitVec.toInt_lt (x := v)
    simp only [incSeq, hm, if_false, Option.some.injEq] at h
    exact ⟨by simp only [i32Max] at hm; omega, h.symm⟩

/-- R132, R134: what advancing `next_seq` can do. -/
theorem advanceNext_next {s t : State} (h : s.advanceNext = .next t) :
    s.nextSeq.toInt < 2147483647 ∧ t = { s with nextSeq := s.nextSeq + 1 } := by
  unfold State.advanceNext at h
  split at h
  · rename_i v hv
    obtain ⟨h1, rfl⟩ := incSeq_eq_some hv
    exact ⟨h1, by simpa using h.symm⟩
  · cases h

theorem advanceNext_of_lt {s : State} (h : s.nextSeq.toInt < 2147483647) :
    s.advanceNext = .next { s with nextSeq := s.nextSeq + 1 } := by
  simp [State.advanceNext, incSeq_of_lt h]

theorem advanceNext_of_max {s : State} (h : s.nextSeq.toInt = 2147483647) :
    s.advanceNext = .fault .seqOverflow := by
  simp [State.advanceNext, incSeq_of_max h]

theorem slotFree_iff (s : State) :
    s.slotFree = true ↔ s.nextSeq.toInt < s.lastAcked.toInt + s.params.windowSize := by
  simp [State.slotFree]

/-- R57: what pushing a payload can do. -/
theorem pushPending_next {p : Bytes} {s t : State} (h : s.pushPending p = .next t) :
    s.queueFull = false ∧ t = { s with pending := s.pending ++ [p] } := by
  unfold State.pushPending at h
  split at h
  · cases h
  · rename_i hq
    exact ⟨by simpa using hq, by simpa using h.symm⟩

/-- R57: a queue with room. -/
theorem queueFull_eq_false (s : State) :
    s.queueFull = false ↔ ∀ d, s.params.pendingDepth = some d → s.pending.length < d := by
  unfold State.queueFull
  split <;> rename_i h <;> simp [h]

theorem pushPending_of_room {p : Bytes} {s : State} (h : s.queueFull = false) :
    s.pushPending p = .next { s with pending := s.pending ++ [p] } := by
  simp [State.pushPending, h]

/-- R105: ENCODE inside and outside its domain. -/
theorem encodeInDomain_of_le {p : Params} {seq ack : I32} {f : Bool} {b : Bytes}
    (h : b.length ≤ p.maxPayload.val) :
    encodeInDomain p seq ack f b = some (encodeFrame seq ack f b) := by
  simp [encodeInDomain, h]

theorem encodeInDomain_of_gt {p : Params} {seq ack : I32} {f : Bool} {b : Bytes}
    (h : p.maxPayload.val < b.length) : encodeInDomain p seq ack f b = none := by
  simp [encodeInDomain, Nat.not_le.2 h]

end Sys2Proof.Machine
end

