-- ==== Sys2Proof/Laws/SendEngine.lean ====
section
/-! SUPPORT. What each operation of the Send Engine can do. -/

namespace Sys2Proof.Machine

/-- R133: SEND_NEW of a payload that fits. -/
theorem sendNew_of_fits {p : Bytes} {s : State} (h : p.length ≤ s.params.maxPayload.val) :
    sendNew p s = .next { s with
      inFlight := Memory.insert s.inFlight s.nextSeq (dataFrame s.nextSeq p)
      actions := s.actions ++ [.tx (dataFrame s.nextSeq p)] } := by
  simp only [sendNew, encodeInDomain_of_le h]
  rfl

/-- R105: SEND_NEW of a payload that does not fit. -/
theorem sendNew_of_long {p : Bytes} {s : State} (h : s.params.maxPayload.val < p.length) :
    sendNew p s = .fault .encodeRange := by
  simp [sendNew, encodeInDomain_of_gt h]

/-- R133: everything SEND_NEW can do where it answers a next state. -/
theorem sendNew_next {p : Bytes} {s t : State} (h : sendNew p s = .next t) :
    p.length ≤ s.params.maxPayload.val ∧ t = { s with
      inFlight := Memory.insert s.inFlight s.nextSeq (dataFrame s.nextSeq p)
      actions := s.actions ++ [.tx (dataFrame s.nextSeq p)] } := by
  by_cases hp : p.length ≤ s.params.maxPayload.val
  · rw [sendNew_of_fits hp] at h
    exact ⟨hp, by simpa using h.symm⟩
  · rw [sendNew_of_long (Nat.not_le.1 hp)] at h
    cases h

/-- R132: everything SUBMIT can do where it answers a next state. -/
theorem submit_next {p : Bytes} {s t : State} (h : submit p s = .next t) :
    (s.slotFree = true ∧ p.length ≤ s.params.maxPayload.val ∧ s.nextSeq.toInt < 2147483647 ∧
      t = ({ startIfOnly { s with
              inFlight := Memory.insert s.inFlight s.nextSeq (dataFrame s.nextSeq p)
              actions := s.actions ++ [.tx (dataFrame s.nextSeq p)] } with
            nextSeq := s.nextSeq + 1 } : State).setStatus .ok) ∨
    (s.slotFree = false ∧ s.queueFull = false ∧
      t = ({ s with pending := s.pending ++ [p] } : State).setStatus .ok) := by
  unfold submit at h
  split at h
  · rename_i hf
    obtain ⟨s1, h1, h2⟩ := andThen_eq_next h
    obtain ⟨s2, h3, h4⟩ := andThen_eq_next h2
    obtain ⟨hp, rfl⟩ := sendNew_next h1
    obtain ⟨hn, rfl⟩ := advanceNext_next h3
    have e : ∀ x : State, (startIfOnly x).nextSeq = x.nextSeq := by
      intro x; unfold startIfOnly; split <;> rfl
    rw [e] at hn
    refine .inl ⟨hf, hp, hn, ?_⟩
    rw [e] at h4
    simpa using h4.symm
  · rename_i hf
    obtain ⟨s1, h1, h2⟩ := andThen_eq_next h
    obtain ⟨hq, rfl⟩ := pushPending_next h1
    exact .inr ⟨by simpa using hf, hq, by simpa using h2.symm⟩

/-- R134: to show a property of DRAIN's loop, show that one iteration keeps it. -/
theorem drainQueue_induction {P : State → Prop}
    (one : ∀ (p : Bytes) (rest : List Bytes) (s : State), P s → s.pending = p :: rest →
      s.slotFree = true → p.length ≤ s.params.maxPayload.val → s.nextSeq.toInt < 2147483647 →
      P { s with
        pending := rest
        nextSeq := s.nextSeq + 1
        inFlight := Memory.insert s.inFlight s.nextSeq (dataFrame s.nextSeq p)
        actions := s.actions ++ [.tx (dataFrame s.nextSeq p)] })
    {q : List Bytes} {s t : State} (hq : s.pending = q) (h : drainQueue q s = .next t) (hs : P s) :
    P t ∧ (t.pending ≠ [] → t.slotFree = false) := by
  induction q generalizing s with
  | nil =>
    obtain rfl : s = t := by simpa [drainQueue] using h
    exact ⟨hs, fun hne => absurd hq hne⟩
  | cons p rest ih =>
    unfold drainQueue at h
    split at h
    · rename_i hf
      obtain ⟨s1, h1, h2⟩ := andThen_eq_next h
      obtain ⟨s2, h3, h4⟩ := andThen_eq_next h2
      obtain ⟨hp, rfl⟩ := sendNew_next h1
      obtain ⟨hn, rfl⟩ := advanceNext_next h3
      exact ih rfl h4 (one p rest s hs hq hf hp hn)
    · rename_i hf
      obtain rfl : s = t := by simpa using h
      exact ⟨hs, fun _ => by simpa using hf⟩

/-- R135: the removals, all at once. -/
theorem removeEach_eq (keys : List I32) (s : State) :
    removeEach keys s = { s with
      inFlight := s.inFlight.filter fun e => !keys.contains e.1
      actions := s.actions ++ List.replicate keys.length .timerStop
      timerArmed := if keys = [] then s.timerArmed else false } := by
  induction keys generalizing s with
  | nil => simp [removeEach]
  | cons k rest ih =>
    rw [removeEach, ih]
    simp only [State.emit_inFlight, State.emit_actions, State.emit_timerArmed, Memory.delete,
      List.filter_filter, armedAfter_timerStop, State.mk.injEq, State.emit_params,
      State.emit_lastAcked, State.emit_nextSeq, State.emit_expectedSeq, State.emit_pending,
      State.emit_lastAckSent, State.emit_input, State.emit_statuses, State.emit_result, true_and,
      and_true]
    refine ⟨?_, ?_, ?_⟩
    · apply List.filter_congr
      intro e _
      by_cases h : e.1 = k <;> simp [h]
    · simp
    · simp [List.replicate_succ]

/-- R139: the retransmissions, all at once. -/
theorem resendEach_eq (m : Memory) (s : State) :
    resendEach m s = { s with actions := s.actions ++ m.map fun e => .tx e.2 } := by
  induction m generalizing s with
  | nil => simp [resendEach]
  | cons e rest ih =>
    obtain ⟨k, f⟩ := e
    rw [resendEach, ih]
    simp [State.emit]

/-- R132: what starting the timer for an only packet does. -/
theorem startIfOnly_eq (s : State) : startIfOnly s = { s with
    actions := s.actions ++ (if s.inFlight.length = 1 then [.timerStart s.params.timeout] else [])
    timerArmed := if s.inFlight.length = 1 then true else s.timerArmed } := by
  unfold startIfOnly
  split
  · rename_i h; simp [State.startTimer, State.emit]
  · rename_i h; simp

/-- R135: what the restart before draining does. -/
theorem restartIfQueued_eq (s : State) : restartIfQueued s = { s with
    actions := s.actions ++ (if s.pending = [] then [] else [.timerStop, .timerStart s.params.timeout])
    timerArmed := if s.pending = [] then s.timerArmed else true } := by
  unfold restartIfQueued
  by_cases h : s.pending = []
  · rw [if_pos (by simp [h]), if_pos h, if_pos h]; simp
  · simp [h, State.restartTimer, State.startTimer, State.emit]

/-- R135: what the restart after draining does. -/
theorem restartIfInFlight_eq (s : State) : restartIfInFlight s = { s with
    actions := s.actions ++ (if s.inFlight = [] then [] else [.timerStop, .timerStart s.params.timeout])
    timerArmed := if s.inFlight = [] then s.timerArmed else true } := by
  unfold restartIfInFlight
  by_cases h : s.inFlight = []
  · rw [if_pos (by simp [h]), if_pos h, if_pos h]; simp
  · simp [h, State.restartTimer, State.startTimer, State.emit]

/-- R135: the removals leave the entries outside the acknowledged interval. -/
theorem ackedKeys_filter (n : I32) (s : State) :
    (s.inFlight.filter fun e => !(ackedKeys s n).contains e.1) = s.inFlight.unacked s.lastAcked n := by
  unfold Memory.unacked
  apply List.filter_congr
  intro e he
  congr 1
  rw [Bool.eq_iff_iff]
  simp only [List.contains_iff_mem, ackedKeys, List.mem_filter, List.mem_map, Bool.and_eq_true, decide_eq_true_eq]
  constructor
  · rintro ⟨-, h⟩; exact h
  · intro h; exact ⟨⟨e, he, rfl⟩, h⟩

theorem length_filter_add_filter_not {α : Type} (l : List α) (q : α → Bool) :
    (l.filter q).length + (l.filter fun a => !q a).length = l.length := by
  induction l with
  | nil => rfl
  | cons a l ih => cases h : q a <;> simp [h] <;> omega

/-- R135: one removal for each entry that goes. -/
theorem ackedKeys_length (n : I32) (s : State) :
    (ackedKeys s n).length = s.inFlight.length - (s.inFlight.unacked s.lastAcked n).length := by
  have h := length_filter_add_filter_not s.inFlight (fun e => decide (s.lastAcked.toInt < e.1.toInt) && decide (e.1.toInt ≤ n.toInt))
  have h2 : (ackedKeys s n).length = (s.inFlight.filter (fun e => decide (s.lastAcked.toInt < e.1.toInt) && decide (e.1.toInt ≤ n.toInt))).length := by
    unfold ackedKeys
    rw [List.filter_map, List.length_map]; rfl
  unfold Memory.unacked
  omega

/-- R135: the state an advancing acknowledgment hands to DRAIN. -/
def beforeDrain (n : I32) (s : State) : State :=
  restartIfQueued { removeEach (ackedKeys s n) s with lastAcked := n }

/-- R135, R137: everything ON_ACK can do where it answers a next state. -/
theorem onAck_next {n : I32} {s t : State} (h : onAck n s = .next t) :
    (s.lastAcked.toInt < n.toInt ∧ ∃ u, drain (beforeDrain n s) = .next u ∧
      t = (restartIfInFlight u).setStatus .ok) ∨
    (n.toInt ≤ s.lastAcked.toInt ∧ t = (removeEach (ackedKeys s n) s).setStatus .staleAck) := by
  have e : (removeEach (ackedKeys s n) s).lastAcked = s.lastAcked := by rw [removeEach_eq]
  simp only [onAck, e] at h
  split at h
  · rename_i hlt
    obtain ⟨u, h1, h2⟩ := andThen_eq_next h
    exact .inl ⟨hlt, u, h1, by simpa using h2.symm⟩
  · rename_i hge
    exact .inr ⟨by omega, by simpa using h.symm⟩

/-- R135(ii): nothing is covered by an acknowledgment that does not advance the window. -/
theorem ackedKeys_of_stale {n : I32} {s : State} (h : n.toInt ≤ s.lastAcked.toInt) :
    ackedKeys s n = [] := by
  simp only [ackedKeys, List.filter_eq_nil_iff, Bool.and_eq_true, decide_eq_true_eq]
  intro k _
  omega

/-- R135: the state handed to DRAIN, field by field. -/
theorem beforeDrain_eq (n : I32) (s : State) : beforeDrain n s = { s with
    lastAcked := n
    inFlight := s.inFlight.unacked s.lastAcked n
    actions := s.actions ++ List.replicate (s.inFlight.length - (s.inFlight.unacked s.lastAcked n).length) .timerStop ++
      (if s.pending = [] then [] else [.timerStop, .timerStart s.params.timeout])
    timerArmed := if s.pending ≠ [] then true else if s.inFlight.length - (s.inFlight.unacked s.lastAcked n).length = 0 then s.timerArmed else false } := by
  unfold beforeDrain
  rw [removeEach_eq, restartIfQueued_eq]
  simp only [ackedKeys_filter, ackedKeys_length]
  have : ackedKeys s n = [] ↔ s.inFlight.length - (s.inFlight.unacked s.lastAcked n).length = 0 := by
    rw [← ackedKeys_length, List.length_eq_zero_iff]
  simp only [this]
  by_cases h : s.pending = [] <;> simp [h]

/-- R139: everything ON_TIMEOUT can do; it always answers a next state. -/
theorem onTimeout_next {s t : State} (h : onTimeout s = .next t) :
    (s.inFlight = [] ∧ t = (s.emit .timerStop).setStatus .ok) ∨
    (s.inFlight ≠ [] ∧ t = ({ s.restartTimer with
      actions := s.restartTimer.actions ++ s.inFlight.map fun e => .tx e.2 } : State).setStatus .ok) := by
  unfold onTimeout at h
  split at h
  · rename_i he
    exact .inl ⟨by simpa using he, by simpa using h.symm⟩
  · rename_i he
    rw [resendEach_eq] at h
    exact .inr ⟨by simpa using he, by simpa using h.symm⟩

/-- R134: DRAIN reports no status; its caller does. -/
theorem drain_statuses {s t : State} (h : drain s = .next t) : t.statuses = s.statuses :=
  (drainQueue_induction (P := fun u => u.statuses = s.statuses)
    (fun _ _ _ hu _ _ _ _ => hu) rfl h rfl).1

/-- R132: SUBMIT reports `OK`. -/
theorem submit_statuses {p : Bytes} {s t : State} (h : submit p s = .next t) :
    t.statuses = s.statuses ++ [.ok] := by
  rcases submit_next h with ⟨-, -, -, rfl⟩ | ⟨-, -, rfl⟩
  · rw [startIfOnly_eq, State.setStatus_statuses]
  · rfl

/-- R135, R137: ON_ACK reports `STALE_ACK` where the window does not advance, and else `OK`. -/
theorem onAck_statuses {n : I32} {s t : State} (h : onAck n s = .next t) :
    t.statuses = s.statuses ++ [if n.toInt ≤ s.lastAcked.toInt then .staleAck else .ok] := by
  rcases onAck_next h with ⟨hlt, u, hu, rfl⟩ | ⟨hle, rfl⟩
  · have hs := drain_statuses hu
    rw [beforeDrain_eq] at hs
    rw [if_neg (by omega), restartIfInFlight_eq, State.setStatus_statuses, hs]
  · rw [if_pos hle, ackedKeys_of_stale hle]
    rfl

/-- R139: ON_TIMEOUT reports `OK`. -/
theorem onTimeout_statuses {s t : State} (h : onTimeout s = .next t) :
    t.statuses = s.statuses ++ [.ok] := by
  rcases onTimeout_next h with ⟨-, rfl⟩ | ⟨-, rfl⟩ <;> rfl

end Sys2Proof.Machine
end

