-- ==== Sys2Proof/Laws/Events.lean ====
section
/-! SUPPORT. What the Receive Engine, the routing of NET_RECV and one step can do. -/

namespace Sys2Proof.Machine

/-- R161, R162: everything ON_DATA can do where it answers a next state. -/
theorem onData_next {p : Packet} {s t : State} (h : onData p s = .next t) :
    (p.seq = s.expectedSeq ∧ s.expectedSeq.toInt < 2147483647 ∧
      t = { s with
        expectedSeq := s.expectedSeq + 1
        lastAckSent := ackFrame s.expectedSeq
        actions := s.actions ++ [.deliver p.payload, .tx (ackFrame s.expectedSeq)]
        statuses := s.statuses ++ [.ok] }) ∨
    (p.seq ≠ s.expectedSeq ∧ t = s.resendLastAck.setStatus .ok) := by
  unfold onData at h
  split at h
  · rename_i he
    unfold acceptData at h
    split at h
    · rename_i v hv
      obtain ⟨h1, rfl⟩ := incSeq_eq_some hv
      refine .inl ⟨he, h1, ?_⟩
      have := Host.Outcome.next.inj h
      rw [← this]
      simp [State.emit, State.setStatus]
    · cases h
  · rename_i he
    exact .inr ⟨he, (Host.Outcome.next.inj h).symm⟩

/-- R161, R162: ON_DATA reports `OK`. -/
theorem onData_statuses {p : Packet} {s t : State} (h : onData p s = .next t) :
    t.statuses = s.statuses ++ [.ok] := by
  rcases onData_next h with ⟨-, -, rfl⟩ | ⟨-, rfl⟩ <;> rfl

/-- R172: everything a received byte string can do. -/
theorem receive_next {raw : Bytes} {s t : State} (h : receive raw s = .next t) :
    (∃ k, decodeFrame raw = .error k ∧ t = s.absorbCorruption k) ∨
    (∃ p, decodeFrame raw = .ok p ∧ p.ackFlag = true ∧ onAck p.ack s = .next t) ∨
    (∃ p, decodeFrame raw = .ok p ∧ p.ackFlag = false ∧ onData p s = .next t) := by
  unfold receive at h
  split at h
  · rename_i k hk
    exact .inl ⟨k, hk, (Host.Outcome.next.inj h).symm⟩
  · rename_i p hp
    split at h
    · rename_i ha; exact .inr (.inl ⟨p, hp, ha, h⟩)
    · rename_i ha; exact .inr (.inr ⟨p, hp, by simpa using ha, h⟩)

/-- R82, R183: what a command transaction decodes to. -/
theorem decodeCommand_cases {b : Bytes} {i : Instr} (h : decodeCommand b = .ok i) :
    (∃ p, b = 0x01#8 :: p ∧ i = .appSend p) ∨ (∃ raw, b = 0x02#8 :: raw ∧ i = .netRecv raw) ∨
      (b = [0x03#8] ∧ i = .timerFire) ∨
      (∃ c op, b = c :: op ∧ c ≠ 0x01#8 ∧ c ≠ 0x02#8 ∧ c ≠ 0x03#8 ∧ i = .cmdReserved c op) := by
  unfold decodeCommand at h
  split at h
  · cases h
  · rename_i c op
    by_cases h1 : c = appSendCode
    · simp only [h1, if_true] at h
      exact .inl ⟨op, by rw [h1]; rfl, (Except.ok.inj h).symm⟩
    · by_cases h2 : c = netRecvCode
      · subst h2
        simp only [h1, if_false, if_true] at h
        exact .inr (.inl ⟨op, rfl, (Except.ok.inj h).symm⟩)
      · by_cases h3 : c = timerFireCode
        · subst h3
          simp only [h1, h2, if_false, if_true] at h
          cases op with
          | nil => exact .inr (.inr (.inl ⟨rfl, (Except.ok.inj h).symm⟩))
          | cons x xs => cases h
        · simp only [h1, h2, h3, if_false] at h
          exact .inr (.inr (.inr ⟨c, op, rfl, h1, h2, h3, (Except.ok.inj h).symm⟩))

/-- R170: everything one step can do where it answers a next state: stay idle, or run one of the three
events, or construct. -/
theorem step_next {s t : State} (h : step s = .next t) :
    (s.takeTransaction = none ∧ t = s) ∨
    ∃ u rest, s.takeTransaction = some (u, rest) ∧
      ((∃ p, decodeTransaction u = .ok (.appSend p) ∧
          execAppSend p { s with input := rest } = .next t) ∨
        (∃ raw, decodeTransaction u = .ok (.netRecv raw) ∧
          receive raw { s with input := rest } = .next t) ∨
        (decodeTransaction u = .ok .timerFire ∧ onTimeout { s with input := rest } = .next t) ∨
        (∃ p, u = .reset p ∧ 0 < p.windowSize ∧
          t = { State.construct p with input := rest })) := by
  unfold step at h
  split at h
  · rename_i hn
    exact .inl ⟨hn, (Host.Outcome.next.inj h).symm⟩
  · rename_i u rest hu
    refine .inr ⟨u, rest, hu, ?_⟩
    split at h
    · rename_i i hi
      cases u with
      | reset p =>
        obtain rfl : Instr.reset p = i := by simpa [decodeTransaction] using hi
        simp only [exec, execReset] at h
        split at h
        · cases h
        · rename_i hw
          exact .inr (.inr (.inr ⟨p, rfl, by omega, (Host.Outcome.next.inj h).symm⟩))
      | command b =>
        rcases decodeCommand_cases hi with ⟨p, -, rfl⟩ | ⟨raw, -, rfl⟩ | ⟨-, rfl⟩ | ⟨c, op, -, -, -, -, rfl⟩
        · exact .inl ⟨p, hi, h⟩
        · exact .inr (.inl ⟨raw, hi, h⟩)
        · exact .inr (.inr (.inl ⟨hi, h⟩))
        · cases h
    · cases h

/-- R171: APP_SEND of an admitted payload is SUBMIT. -/
theorem execAppSend_next {p : Bytes} {s t : State} (h : execAppSend p s = .next t) :
    p.length ≤ s.params.maxPayload.val ∧ submit p s = .next t := by
  unfold execAppSend at h
  split at h
  · rename_i hp; exact ⟨hp, h⟩
  · cases h

/-- R172: the three ways an acknowledgment arrives are ON_ACK. -/
theorem exec_of_receivesAck {i : Instr} {n : I32} (h : ReceivesAck i n) (s : State) : exec i s = onAck n s := by
  rcases h with rfl | ⟨raw, p, hr, hd, ha, rfl⟩
  · rfl
  · cases i <;> simp only [rawFrame, Option.some.injEq, reduceCtorEq] at hr <;> subst hr <;>
      simp only [exec, execNetRecv, execFrameData, execFrameAck, receive, hd, ha, if_true]

/-- R172: the three ways a data packet arrives are ON_DATA. -/
theorem exec_of_receivesData {i : Instr} {p : Packet} (h : ReceivesData i p) (s : State) : exec i s = onData p s := by
  rcases h with rfl | ⟨raw, hr, hd, ha⟩
  · rfl
  · cases i <;> simp only [rawFrame, Option.some.injEq, reduceCtorEq] at hr <;> subst hr <;>
      simp only [exec, execNetRecv, execFrameData, execFrameAck, receive, hd, ha, Bool.false_eq_true, if_false]

/-- R172, R200: the three ways a corrupt frame arrives are ON_CORRUPTION. -/
theorem exec_of_receivesCorruption {i : Instr} {k : CorruptionKind} (h : ReceivesCorruption i k) (s : State) :
    exec i s = .next (s.absorbCorruption k) := by
  rcases h with rfl | ⟨raw, hr, hd⟩
  · rfl
  · cases i <;> simp only [rawFrame, Option.some.injEq, reduceCtorEq] at hr <;> subst hr <;>
      simp only [exec, execNetRecv, execFrameData, execFrameAck, receive, hd]

end Sys2Proof.Machine
end

