-- ==== Sys2Proof/Laws/Fetch.lean ====
section
/-! SUPPORT. Which transaction a step takes past held ones. -/

namespace Sys2Proof.Machine

/-- Held APP_SENDs are passed over, in order. -/
theorem takeOther_of_appSends (before : List Transaction) (u : Transaction) (after : List Transaction)
    (hb : ∀ t ∈ before, isAppSend t = true) (hu : isAppSend u = false) :
    takeOther (before ++ u :: after) = some (u, before ++ after) := by
  induction before with
  | nil => simp [takeOther, hu]
  | cons t ts ih =>
    simp [takeOther, hb t (by simp), ih (fun t ht => hb t (by simp [ht]))]

/-- Nothing but APP_SENDs: nothing to take. -/
theorem takeOther_none (before : List Transaction) (hb : ∀ t ∈ before, isAppSend t = true) : takeOther before = none := by
  induction before with
  | nil => rfl
  | cons t ts ih => simp [takeOther, hb t (by simp), ih (fun t ht => hb t (by simp [ht]))]

/-- What is taken past a held APP_SEND is no APP_SEND. -/
theorem takeOther_not {ts u r} (h : takeOther ts = some (u, r)) : isAppSend u = false := by
  induction ts generalizing r with
  | nil => simp [takeOther] at h
  | cons t ts ih =>
    unfold takeOther at h
    split at h
    · split at h
      · rename_i u' o' heq
        simp at h
        obtain ⟨rfl, -⟩ := h
        exact ih heq
      · cases h
    · rename_i hh; simp at h; obtain ⟨rfl, -⟩ := h; simpa using hh

end Sys2Proof.Machine
end

