-- ==== Sys2Proof/Tests/Slice0.lean ====
section
/-! SUPPORT. Tests: ill-formed terms refused, words written out from the spec's encodings, one-step vectors
of spec/95_test_vectors.md, and a witness for the hypotheses of every statement that has some. -/

namespace Sys2Proof.Tests

open Sys2Proof Sys2Proof.Machine

/-! ### Helpers -/

/-- The next state, where there is one. -/
def after (o : Host.Outcome State Fault Refusal) : Option State :=
  match o with
  | .next s => some s
  | .fault _ => none
  | .refused _ => none

/-- What a vector of spec/95_test_vectors.md gives of the sending half. -/
structure SenderView where
  lastAcked : Int
  nextSeq : Int
  inFlight : Memory
  pending : List Bytes
  timerArmed : Bool
  actions : List Machine.Action
  statuses : List Status
  deriving DecidableEq

def sender (s : State) : SenderView :=
  ⟨s.lastAcked.toInt, s.nextSeq.toInt, s.inFlight, s.pending, s.timerArmed, s.actions, s.statuses⟩

/-- What a vector gives of the receiving half. -/
def receiver (s : State) : Int × Bytes × List Machine.Action × List Status :=
  (s.expectedSeq.toInt, s.lastAckSent, s.actions, s.statuses)

/-- A fresh entity with this window size, `TIMEOUT = 7`, an unbounded queue. -/
def fresh (window : Int) : State :=
  State.construct { windowSize := window, timeout := 7, maxPayload := 100, pendingDepth := none }

/-- A sender in the notation of spec/95_test_vectors.md section 2.4. -/
def window (w : Int) (lastAcked nextSeq : I32) (inFlight : Memory) (pending : List Bytes) (armed : Bool) :
    State :=
  { fresh w with
    lastAcked := lastAcked, nextSeq := nextSeq, inFlight := inFlight, pending := pending,
    timerArmed := armed }

/-- V21 to V25, V31, V20: the frames of the vectors, written out. -/
def data1 : Bytes := [0x00#8, 0x00#8, 0x00#8, 0x01#8, 0x00#8, 0x00#8, 0x00#8, 0x00#8, 0xFE#8,
    0x9D#8, 0x00#8, 0x00#8, 0x00#8, 0x00#8, 0x01#8, 0x61#8]
def data2 : Bytes := [0x00#8, 0x00#8, 0x00#8, 0x02#8, 0x00#8, 0x00#8, 0x00#8, 0x00#8, 0xFE#8,
    0x9B#8, 0x00#8, 0x00#8, 0x00#8, 0x00#8, 0x01#8, 0x62#8]
def data3 : Bytes := [0x00#8, 0x00#8, 0x00#8, 0x03#8, 0x00#8, 0x00#8, 0x00#8, 0x00#8, 0xFE#8,
    0x99#8, 0x00#8, 0x00#8, 0x00#8, 0x00#8, 0x01#8, 0x63#8]
def data4 : Bytes := [0x00#8, 0x00#8, 0x00#8, 0x04#8, 0x00#8, 0x00#8, 0x00#8, 0x00#8, 0xFE#8,
    0x97#8, 0x00#8, 0x00#8, 0x00#8, 0x00#8, 0x01#8, 0x64#8]
def data5 : Bytes := [0x00#8, 0x00#8, 0x00#8, 0x05#8, 0x00#8, 0x00#8, 0x00#8, 0x00#8, 0xFE#8,
    0x95#8, 0x00#8, 0x00#8, 0x00#8, 0x00#8, 0x01#8, 0x65#8]
def ack0 : Bytes := [0x00#8, 0x00#8, 0x00#8, 0x00#8, 0x00#8, 0x00#8, 0x00#8, 0x00#8, 0xFE#8,
    0xFF#8, 0x01#8, 0x00#8, 0x00#8, 0x00#8, 0x00#8]
def ack1 : Bytes := [0x00#8, 0x00#8, 0x00#8, 0x00#8, 0x00#8, 0x00#8, 0x00#8, 0x01#8, 0xFE#8,
    0xFE#8, 0x01#8, 0x00#8, 0x00#8, 0x00#8, 0x00#8]
def ack2 : Bytes := [0x00#8, 0x00#8, 0x00#8, 0x00#8, 0x00#8, 0x00#8, 0x00#8, 0x02#8, 0xFE#8,
    0xFD#8, 0x01#8, 0x00#8, 0x00#8, 0x00#8, 0x00#8]
def ack3 : Bytes := [0x00#8, 0x00#8, 0x00#8, 0x00#8, 0x00#8, 0x00#8, 0x00#8, 0x03#8, 0xFE#8,
    0xFC#8, 0x01#8, 0x00#8, 0x00#8, 0x00#8, 0x00#8]

/-! ### WellFormed refuses each kind of ill-formed term -/

theorem test_wf_reserved_code_is_not_01 : (Instr.cmdReserved 0x01#8 []).wellFormed = false := by decide
theorem test_wf_reserved_code_is_not_02 : (Instr.cmdReserved 0x02#8 []).wellFormed = false := by decide
theorem test_wf_reserved_code_is_not_03 : (Instr.cmdReserved 0x03#8 []).wellFormed = false := by decide
theorem test_wf_data_length_field : (Instr.frameData 1 0 0 2 [0x61#8]).wellFormed = false := by decide
theorem test_wf_data_negative_length : (Instr.frameData 1 0 0 (-1) []).wellFormed = false := by decide
theorem test_wf_ack_flag_zero : (Instr.frameAck 0 1 0 0x00#8 0 []).wellFormed = false := by decide
theorem test_wf_ack_length_field : (Instr.frameAck 0 1 0 0x01#8 1 []).wellFormed = false := by decide
theorem test_wf_on_data_of_ack :
    (Instr.onData { seq := 1, ack := 0, checksum := 0, ackFlag := true, payloadLength := 0,
                    payload := [] }).wellFormed = false := by decide
theorem test_wf_on_data_length :
    (Instr.onData { seq := 1, ack := 0, checksum := 0, ackFlag := false, payloadLength := 1,
                    payload := [] }).wellFormed = false := by decide
theorem test_wf_accepts :
    (Instr.frameAck 0 3 0xFDFC#16 0x02#8 0 []).wellFormed = true ∧
      (Instr.cmdReserved 0x04#8 [0x61#8]).wellFormed = true := by decide

/-! ### Words written out bit by bit decode to the instruction they stand for -/

-- R82
theorem test_decode_app_send :
    decodeOn .command [0b00000001#8, 0b01100001#8] = .ok (.appSend [0x61#8]) := by decide
theorem test_decode_net_recv :
    decodeOn .command [0b00000010#8, 0b00000000#8] = .ok (.netRecv [0x00#8]) := by decide
theorem test_decode_timer_fire : decodeOn .command [0b00000011#8] = .ok .timerFire := by decide
theorem test_decode_reserved :
    decodeOn .command [0b10000001#8] = .ok (.cmdReserved 0x81#8 []) := by decide
theorem test_decode_refuses_operand_of_timer_fire :
    decodeOn .command [0b00000011#8, 0b00000000#8] = .error (.operandOfNone 0x03#8) := by decide
-- R70, V32: two bytes of payload
theorem test_decode_frame_data :
    decodeOn .channel
      [0b00000000#8, 0b00000000#8, 0b00000000#8, 0b00000010#8,
        0b00000000#8, 0b00000000#8, 0b00000000#8, 0b00000000#8,
        0b10010100#8, 0b10010101#8, 0b00000000#8,
        0b00000000#8, 0b00000000#8, 0b00000000#8, 0b00000010#8,
        0b01101000#8, 0b01101001#8] = .ok (.frameData 2 0 0x9495#16 2 [0x68#8, 0x69#8]) := by decide
-- R70, R73, V30: the extremes of the signed fields
theorem test_decode_frame_ack :
    decodeOn .channel
      [0b01111111#8, 0b11111111#8, 0b11111111#8, 0b11111111#8,
        0b10000000#8, 0b00000000#8, 0b00000000#8, 0b00000000#8,
        0b11111110#8, 0b11111111#8, 0b00000001#8,
        0b00000000#8, 0b00000000#8, 0b00000000#8, 0b00000000#8] =
      .ok (.frameAck 2147483647 (-2147483648) 0xFEFF#16 0x01#8 0 []) := by decide
-- R81
theorem test_decode_refuses_short_frame :
    decodeOn .channel (data1.take 14) = .error .truncatedFrame := by decide
theorem test_decode_refuses_trailing_byte :
    decodeOn .channel (data1 ++ [0x00#8]) = .error .frameLength := by decide
-- R83
theorem test_decode_tx : decodeOn .action [0b00000001#8, 0b01100001#8] = .ok (.tx [0x61#8]) := by decide
theorem test_decode_deliver :
    decodeOn .action [0b00000010#8, 0b01100001#8] = .ok (.deliver [0x61#8]) := by decide
theorem test_decode_timer_start : decodeOn .action [0b00000011#8] = .ok .timerStart := by decide
theorem test_decode_timer_stop : decodeOn .action [0b00000100#8] = .ok .timerStop := by decide
theorem test_decode_no_action : decodeOn .action [0b00000101#8] = .error (.noSuchAction 0x05#8) := by
  decide
-- spec/opcode_table.json: the 8-bit command rows and the 120-bit frame rows
theorem test_table_command : decodeTableWord 8 0b00000010 = some (.netRecv []) := by decide
theorem test_table_frame_data : decodeTableWord 120 (2 ^ 88) = some (.frameData 1 0 0 0 []) := by decide
theorem test_table_frame_ack :
    decodeTableWord 120 (0b1 <<< 32) = some (.frameAck 0 0 0 0x01#8 0 []) := by decide
-- R170: the transaction that withFetchWord places is the one step runs
theorem test_step_runs_fetch_word :
    (after (step (State.reset.withFetchWord 8 0b00000011))).map sender =
      some ⟨0, 1, [], [], false, [.timerStop], [.ok]⟩ := by decide
theorem test_step_receives_fetch_frame :
    (after (step (State.reset.withFetchWord 120 0))).map receiver =
      some (1, ack0, [.tx ack0], [.corruptChecksum]) := by decide

/-! ### One step each (spec/95_test_vectors.md) -/

-- V5: the end-around carry; V9: two carries
theorem test_ocsum_carry :
    (after (exec (.ocsum [0xFF#8, 0xFF#8, 0x00#8,
        0x01#8]) State.reset)).map (·.result) = some (.u16 0x0001#16) := by decide
theorem test_ocsum_two_carries :
    (after (exec (.ocsum [0xF0#8, 0xF0#8, 0xF0#8, 0xF0#8, 0xF0#8, 0xF0#8]) State.reset)).map (·.result) =
      some (.u16 0xD2D2#16) := by decide
-- V8: an odd length; V3: one byte is a high byte
theorem test_checksum_odd :
    (after (exec (.checksum [0x01#8, 0x02#8,
        0x03#8]) State.reset)).map (·.result) = some (.u16 0xFBFD#16) := by decide
theorem test_checksum_one_byte :
    (after (exec (.checksum [0xFF#8]) State.reset)).map (·.result) = some (.u16 0x00FF#16) := by decide
-- R106, V40: a frame verifies; V44: fifteen zero bytes do not
theorem test_verify_frame :
    (after (exec (.verify data1) State.reset)).map (·.result) = some (.bool true) := by decide
theorem test_verify_zeros :
    (after (exec (.verify [0x00#8, 0x00#8, 0x00#8, 0x00#8, 0x00#8, 0x00#8, 0x00#8, 0x00#8, 0x00#8,
        0x00#8, 0x00#8, 0x00#8, 0x00#8, 0x00#8, 0x00#8]) State.reset)).map (·.result) =
      some (.bool false) := by decide
-- V28, V29
theorem test_encode_hello :
    (after (exec (.encode 7 0 false [0x68#8, 0x65#8, 0x6C#8, 0x6C#8, 0x6F#8]) State.reset)).map (·.result) =
      some (.bytes [0x00#8, 0x00#8, 0x00#8, 0x07#8, 0x00#8, 0x00#8, 0x00#8, 0x00#8, 0x28#8,
          0xB5#8, 0x00#8, 0x00#8, 0x00#8, 0x00#8, 0x05#8, 0x68#8, 0x65#8, 0x6C#8, 0x6C#8,
          0x6F#8]) := by decide
theorem test_encode_negative :
    (after (exec (.encode (-1) (-2) false [0x00#8]) State.reset)).map (·.result) =
      some (.bytes [0xFF#8, 0xFF#8, 0xFF#8, 0xFF#8, 0xFF#8, 0xFF#8, 0xFF#8, 0xFE#8, 0xFF#8,
          0x00#8, 0x00#8, 0x00#8, 0x00#8, 0x00#8, 0x01#8, 0x00#8]) := by decide
-- V50: flag byte 02; V48: payload length -1
theorem test_decode_flag_two :
    (after (exec (.decode [0x00#8, 0x00#8, 0x00#8, 0x00#8, 0x00#8, 0x00#8, 0x00#8, 0x03#8, 0xFD#8,
        0xFC#8, 0x02#8, 0x00#8, 0x00#8, 0x00#8, 0x00#8]) State.reset)).map (·.result) =
      some (.packet { seq := 0, ack := 3, checksum := 0xFDFC#16, ackFlag := true, payloadLength := 0,
                      payload := [] }) := by decide
theorem test_decode_negative_length :
    (after (exec (.decode [0x00#8, 0x00#8, 0x00#8, 0x01#8, 0x00#8, 0x00#8, 0x00#8, 0x00#8, 0xFF#8,
        0xFE#8, 0x00#8, 0xFF#8, 0xFF#8, 0xFF#8, 0xFF#8]) State.reset)).map (·.result) =
      some (.corruption .length) := by decide
-- V22, V31
theorem test_data_notation :
    (after (exec (.data 2 [0x62#8]) State.reset)).map (·.result) = some (.bytes data2) := by decide
theorem test_ack_notation :
    (after (exec (.ack 3) State.reset)).map (·.result) = some (.bytes ack3) := by decide
-- R133: neither `next_seq` nor the timer
theorem test_send_new :
    (after (exec (.sendNew [0x62#8]) (window 4 0 2 [(1, data1)] [] true))).map sender =
      some ⟨0, 2, [(1, data1), (2, data2)], [], true, [.tx data2], []⟩ := by decide
-- V60: the last free slot sends, the next payload queues
theorem test_submit_last_slot :
    (after (exec (.submit [0x63#8]) (window 4 0 3 [(1, data1), (2, data2)] [] true))).map sender =
      some ⟨0, 4, [(1, data1), (2, data2), (3, data3)], [], true, [.tx data3], [.ok]⟩ := by decide
theorem test_submit_queues :
    (after (exec (.submit [0x64#8])
      (window 4 0 4 [(1, data1), (2, data2), (3, data3)] [] true))).map sender =
      some ⟨0, 4, [(1, data1), (2, data2), (3, data3)], [[0x64#8]], true, [], [.ok]⟩ := by decide
-- P1 step 1: the empty window starts the timer; V62: window size 1 queues
theorem test_app_send_first :
    (after (exec (.appSend [0x61#8]) (fresh 4))).map sender =
      some ⟨0, 2, [(1, data1)], [], true, [.tx data1, .timerStart 7], [.ok]⟩ := by decide
theorem test_app_send_window_one :
    (after (exec (.appSend [0x61#8]) (fresh 1))).map sender =
      some ⟨0, 1, [], [[0x61#8]], false, [], [.ok]⟩ := by decide
-- R134: two slots free, three queued
theorem test_drain_stops_at_window :
    (after (exec .drain (window 3 2 3 [] [[0x63#8], [0x64#8], [0x65#8]] false))).map sender =
      some ⟨2, 5, [(3, data3), (4, data4)], [[0x65#8]], false, [.tx data3, .tx data4], []⟩ := by decide
-- V64: a cumulative acknowledgment with a drain; V63: stale, negative
theorem test_on_ack_cumulative :
    (after (exec (.onAck 4)
      (window 4 1 5 [(2, data2), (3, data3), (4, data4)] [[0x65#8]] true))).map sender =
      some ⟨4, 6, [(5, data5)], [], true,
        [.timerStop, .timerStop, .timerStop, .timerStop, .timerStart 7, .tx data5, .timerStop,
          .timerStart 7], [.ok]⟩ := by decide
theorem test_on_ack_stale :
    (after (exec (.onAck (-7)) (window 4 2 5 [(3, data3), (4, data4)] [] true))).map sender =
      some ⟨2, 5, [(3, data3), (4, data4)], [], true, [], [.staleAck]⟩ := by decide
-- V69: go back N in ascending order; V67: a spurious expiry
theorem test_on_timeout_resends :
    (after (exec .onTimeout (window 4 0 3 [(1, data1), (2, data2)] [] true))).map sender =
      some ⟨0, 3, [(1, data1), (2, data2)], [], true,
        [.timerStop, .timerStart 7, .tx data1, .tx data2], [.ok]⟩ := by decide
theorem test_on_timeout_spurious :
    (after (exec .onTimeout (fresh 4))).map sender = some ⟨0, 1, [], [], false, [.timerStop], [.ok]⟩ := by
  decide
theorem test_timer_fire_resends :
    (after (exec .timerFire (window 4 0 2 [(1, data1)] [] true))).map sender =
      some ⟨0, 2, [(1, data1)], [], true, [.timerStop, .timerStart 7, .tx data1], [.ok]⟩ := by decide
-- V74: an empty payload is delivered; V72: a duplicate is not
theorem test_on_data_empty :
    (after (exec (.onData { seq := 1, ack := 0, checksum := 0xFFFE#16, ackFlag := false,
                            payloadLength := 0, payload := [] }) (fresh 4))).map receiver =
      some (2, ack1, [.deliver [], .tx ack1], [.ok]) := by decide
theorem test_on_data_duplicate :
    (after (exec (.onData { seq := 1, ack := 0, checksum := 0xFE9D#16, ackFlag := false,
                            payloadLength := 1, payload := [0x61#8] })
      { fresh 4 with expectedSeq := 2, lastAckSent := ack1 })).map receiver =
      some (2, ack1, [.tx ack1], [.ok]) := by decide
theorem test_on_corruption :
    (after (exec (.onCorruption .length) { fresh 4 with expectedSeq := 2, lastAckSent := ack1 })).map
      receiver = some (2, ack1, [.tx ack1], [.corruptLength]) := by decide
-- P2 step 1: data accepted; V55: an acknowledgment with a payload, its payload ignored
theorem test_net_recv_data :
    (after (exec (.netRecv data1) (fresh 4))).map receiver =
      some (2, ack1, [.deliver [0x61#8], .tx ack1], [.ok]) := by decide
theorem test_net_recv_ack_with_payload :
    (after (exec (.netRecv [0x00#8, 0x00#8, 0x00#8, 0x00#8, 0x00#8, 0x00#8, 0x00#8, 0x02#8,
        0x83#8, 0x85#8, 0x01#8, 0x00#8, 0x00#8, 0x00#8, 0x02#8, 0x78#8, 0x79#8])
      (window 4 0 3 [(1, data1), (2, data2)] [] true))).map sender =
      some ⟨2, 3, [], [], false, [.timerStop, .timerStop], [.ok]⟩ := by decide
-- V76: the undetected error of V52 is not the expected number; V50: flag byte 02 acknowledges
theorem test_frame_data_undetected_error :
    (after (exec (.frameData 0 1 0xFE9D#16 1 [0x61#8]) (fresh 4))).map receiver =
      some (1, ack0, [.tx ack0], [.ok]) := by decide
theorem test_frame_ack_flag_two :
    (after (exec (.frameAck 0 3 0xFDFC#16 0x02#8 0 [])
      (window 4 0 4 [(1, data1), (2, data2), (3, data3)] [] true))).map sender =
      some ⟨3, 4, [], [], false, [.timerStop, .timerStop, .timerStop], [.ok]⟩ := by decide
theorem test_cmd_reserved_has_no_step :
    after (exec (.cmdReserved 0x00#8 []) State.reset) = none := by decide
-- R175 to R178
theorem test_tx :
    (after (exec (.tx ack0) (fresh 4))).map sender = some ⟨0, 1, [], [], false, [.tx ack0], []⟩ := by decide
theorem test_deliver :
    (after (exec (.deliver [0x61#8]) (fresh 4))).map sender =
      some ⟨0, 1, [], [], false, [.deliver [0x61#8]], []⟩ := by decide
theorem test_timer_start :
    (after (exec .timerStart (fresh 4))).map sender =
      some ⟨0, 1, [], [], true, [.timerStart 7], []⟩ := by decide
theorem test_timer_stop :
    (after (exec .timerStop { fresh 4 with timerArmed := true })).map sender =
      some ⟨0, 1, [], [], false, [.timerStop], []⟩ := by decide
-- R36: the window is discarded, nothing is sent
theorem test_reset_discards :
    (after (exec (.reset resetParams)
      (window 2 3 5 [(4, data4)] [[0x65#8]] true))).map sender = some ⟨0, 1, [], [], false, [],
          []⟩ := by decide
theorem test_reset_ack : State.reset.lastAckSent = ack0 := by decide

/-! ### Outputs as the interface carries them -/

-- R83, P1 step 1: the first byte of each action record, and the status code OK
theorem test_output_of_app_send :
    (after (exec (.appSend [0x61#8]) (fresh 4))).map (fun t => (t.actionOutput, t.statusOutput)) =
      some ([0x01#8 :: data1, [0x03#8]], [0x00#8]) := by decide
-- R83, R191: a string one byte short of a header
theorem test_output_of_truncated :
    (after (exec (.netRecv (data1.take 14)) (fresh 4))).map (fun t => (t.actionOutput, t.statusOutput)) =
      some ([0x01#8 :: ack0], [0x10#8]) := by decide
theorem test_status_code_unassigned : Status.ofCode 0x02#8 = none ∧ Status.ofCode 0x13#8 = none := by decide
theorem test_record_decodes :
    decodeAction (Machine.Action.deliver [0x61#8]).record = .ok (.deliver [0x61#8]) ∧
      decodeAction (Machine.Action.timerStart 7).record = .ok .timerStart := by decide

/-! ### Witnesses: states and operands that meet the hypotheses of each statement -/

/-- P1 after step 1: one frame in flight. -/
def oneSent : State :=
  { window 4 0 2 [(1, data1)] [] true with actions := [.tx data1, .timerStart 7], statuses := [.ok] }

/-- V61 after two submissions: window size 2, one frame in flight, one payload queued. -/
def oneQueued : State :=
  { window 2 0 2 [(1, data1)] [[0x62#8]] true with
    actions := [.tx data1, .timerStart 7], statuses := [.ok, .ok] }

/-- One frame sent and acknowledged: the window is empty again. -/
def allAcked : State :=
  { window 4 1 2 [] [] false with
    actions := [.tx data1, .timerStart 7, .timerStop], statuses := [.ok, .ok] }

/-- V62: window size 1 with its payload queued. -/
def windowOne : State := { window 1 0 1 [] [[0x61#8]] false with statuses := [.ok] }

/-- The last sequence number, with a free slot and a payload to send. -/
def lastNumber : State := window 4 2147483646 2147483647 [] [[0x61#8]] false

/-- A full queue of depth 1 behind a full window. -/
def fullQueue : State :=
  { window 2 0 2 [(1, data1)] [[0x62#8]] true with
    params := { windowSize := 2, timeout := 7, maxPayload := 1, pendingDepth := some 1 } }

theorem witness_inv_oneSent : Inv oneSent where
  windowPositive := by decide
  lastAckedNonneg := by decide
  nextSeqPositive := by decide
  expectedSeqPositive := by decide
  windowBound := by decide
  storeOrdered := by decide
  keysAssigned := by decide
  storedFrames := by
    intro e he
    obtain rfl : e = (1, data1) := by simpa [oneSent, window] using he
    exact ⟨[0x61#8], by decide, by decide⟩
  queuedMeansFull := by decide
  queuedFit := by decide
  queueBounded := by simp [oneSent, window, fresh, State.construct]
  lastAckIsPrevious := by decide
  timerIffInFlight := by decide
  timerAsCommanded := by decide
  deliveriesCounted := by decide

theorem witness_inv_oneQueued : Inv oneQueued where
  windowPositive := by decide
  lastAckedNonneg := by decide
  nextSeqPositive := by decide
  expectedSeqPositive := by decide
  windowBound := by decide
  storeOrdered := by decide
  keysAssigned := by decide
  storedFrames := by
    intro e he
    obtain rfl : e = (1, data1) := by simpa [oneQueued, window] using he
    exact ⟨[0x61#8], by decide, by decide⟩
  queuedMeansFull := by decide
  queuedFit := by decide
  queueBounded := by simp [oneQueued, window, fresh, State.construct]
  lastAckIsPrevious := by decide
  timerIffInFlight := by decide
  timerAsCommanded := by decide
  deliveriesCounted := by decide

theorem witness_inv_allAcked : Inv allAcked where
  windowPositive := by decide
  lastAckedNonneg := by decide
  nextSeqPositive := by decide
  expectedSeqPositive := by decide
  windowBound := by decide
  storeOrdered := by decide
  keysAssigned := by decide
  storedFrames := by simp [allAcked, window]
  queuedMeansFull := by decide
  queuedFit := by decide
  queueBounded := by simp [allAcked, window, fresh, State.construct]
  lastAckIsPrevious := by decide
  timerIffInFlight := by decide
  timerAsCommanded := by decide
  deliveriesCounted := by decide

theorem witness_inv_windowOne : Inv windowOne where
  windowPositive := by decide
  lastAckedNonneg := by decide
  nextSeqPositive := by decide
  expectedSeqPositive := by decide
  windowBound := by decide
  storeOrdered := by decide
  keysAssigned := by decide
  storedFrames := by simp [windowOne, window]
  queuedMeansFull := by decide
  queuedFit := by decide
  queueBounded := by simp [windowOne, window, fresh, State.construct]
  lastAckIsPrevious := by decide
  timerIffInFlight := by decide
  timerAsCommanded := by decide
  deliveriesCounted := by decide

/-- The invariant does not read the input, so what is to come may be chosen. -/
theorem inv_withInput {s : State} (h : Inv s) (l : List Transaction) : Inv { s with input := l } :=
  ⟨h.1, h.2, h.3, h.4, h.5, h.6, h.7, h.8, h.9, h.10, h.11, h.12, h.13, h.14, h.15⟩

theorem occupancy_withInput {s : State} (h : Occupancy s) (l : List Transaction) :
    Occupancy { s with input := l } := ⟨h.1, h.2, h.3⟩

theorem witness_occupancy_oneSent : Occupancy oneSent where
  ackedBelowNext := by decide
  keysAreInterval := by
    intro k
    have e0 : oneSent.lastAcked.toInt = 0 := by decide
    have e2 : oneSent.nextSeq.toInt = 2 := by decide
    rw [e0, e2]
    constructor
    · rintro ⟨f, hf⟩
      obtain ⟨rfl, -⟩ : k = 1 ∧ f = data1 := by simpa [oneSent, window] using hf
      decide
    · intro h
      obtain rfl : k = 1 := BitVec.eq_of_toInt_eq (by
        rw [show (1 : I32).toInt = 1 by decide]; omega)
      exact ⟨data1, by simp [oneSent, window]⟩
  count := by decide

theorem witness_occupancy_windowOne : Occupancy windowOne where
  ackedBelowNext := by decide
  keysAreInterval := by
    intro k
    have e0 : windowOne.lastAcked.toInt = 0 := by decide
    have e1 : windowOne.nextSeq.toInt = 1 := by decide
    rw [e0, e1]
    constructor
    · rintro ⟨f, hf⟩
      simp [windowOne, window] at hf
    · intro h
      omega
  count := by decide

/-- A step that takes a TIMER_FIRE takes no acknowledgment and no construction. -/
theorem timer_fire_taken (s : State) :
    ({ s with input := [.command [0x03#8]] } : State).nextAckIsOfSent ∧
      ∀ p rest,
          ({ s with input := [.command [0x03#8]] } : State).takeTransaction ≠ some (.reset p,
          rest) := by
  have h : ({ s with input := [.command [0x03#8]] } : State).takeTransaction = some (.command [0x03#8],
      []) := rfl
  constructor
  · intro t rest raw p h1 h2
    rw [h] at h1
    obtain rfl : Transaction.command [0x03#8] = t := by simpa using congrArg (Option.map Prod.fst) h1
    have hd : decodeTransaction (.command [0x03#8]) = .ok .timerFire := rfl
    rw [hd] at h2
    cases h2
  · intro p rest h1
    rw [h] at h1
    simp at h1

-- O4, O10, O11: a payload of exactly `MAX_PAYLOAD` bytes
theorem witness_payload_at_limit :
    ([0x61#8] : Bytes).length ≤ fullQueue.params.maxPayload.val ∧
      ¬ ([0x61#8, 0x62#8] : Bytes).length ≤ fullQueue.params.maxPayload.val := by decide
-- O5: one byte too many
theorem witness_OverlongPayloadFaults :
    fullQueue.params.maxPayload.val < ([0x61#8, 0x62#8] : Bytes).length := by decide
-- O6, clause by clause
theorem witness_Decode_truncated : (data1.take 14).length < 15 := by decide
theorem witness_Decode_checksum :
    15 ≤ (List.replicate 15 0x00#8).length ∧ checksum (List.replicate 15 0x00#8) ≠ 0x0000#16 := by decide
theorem witness_Decode_length :
    checksum ([0x00#8, 0x00#8, 0x00#8, 0x01#8, 0x00#8, 0x00#8, 0x00#8, 0x00#8, 0xFA#8, 0xFE#8,
        0x00#8, 0x00#8, 0x00#8, 0x00#8, 0x05#8] ++ []) = 0x0000#16 ∧
      ((0x00#8 ++ 0x00#8 ++ 0x00#8 ++ 0x05#8 : I32)).toInt ≠ ([] : Bytes).length := by decide
theorem witness_Decode_reads :
    checksum ([0x00#8, 0x00#8, 0x00#8, 0x00#8, 0x00#8, 0x00#8, 0x00#8, 0x03#8, 0xFD#8, 0xFC#8,
        0x02#8, 0x00#8, 0x00#8, 0x00#8, 0x00#8] ++ []) = 0x0000#16 ∧
      ((0x00#8 ++ 0x00#8 ++ 0x00#8 ++ 0x00#8 : I32)).toInt = ([] : Bytes).length := by decide
-- O7
theorem witness_DecodeRecoversEncodedFields : ([0xFE#8, 0xFD#8] : Bytes).length ≤ 2147483647 := by decide
-- O8: the last byte, both clauses
theorem witness_OneByteChange :
    ∃ h : 15 < data1.length, verify data1 = true ∧ 0x60#8 ≠ data1[15] ∧ 15 ≤ data1.length := by decide
-- O9: V27
theorem witness_ZeroChecksum : ocsum (frameWith 1 0 0x0000#16 false [0xFE#8, 0xFD#8]) = 0xFFFF#16 := by decide
-- O12, clause by clause
theorem witness_Submit_sends :
    oneSent.nextSeq.toInt < oneSent.lastAcked.toInt + oneSent.params.windowSize ∧
      oneSent.nextSeq.toInt < 2147483647 ∧ ([0x62#8] : Bytes).length ≤ oneSent.params.maxPayload.val := by decide
theorem witness_Submit_overflows :
    lastNumber.nextSeq.toInt < lastNumber.lastAcked.toInt + lastNumber.params.windowSize ∧
      lastNumber.nextSeq.toInt = 2147483647 ∧
      ([0x62#8] : Bytes).length ≤ lastNumber.params.maxPayload.val := by decide
theorem witness_Submit_queues :
    ¬ oneQueued.nextSeq.toInt < oneQueued.lastAcked.toInt + oneQueued.params.windowSize ∧
      (∀ d, oneQueued.params.pendingDepth = some d → oneQueued.pending.length < d) ∧
      ([0x63#8] : Bytes).length ≤ oneQueued.params.maxPayload.val :=
  ⟨by decide, by simp [oneQueued, window, fresh, State.construct], by decide⟩
-- O13: an empty window and one that is not
theorem witness_SubmitStartsTimer_empty :
    Inv allAcked ∧ allAcked.slotFree = true ∧ allAcked.inFlight = [] ∧
      ∃ t, exec (.appSend [0x62#8]) allAcked = .next t := ⟨witness_inv_allAcked, by decide, rfl, _, rfl⟩
theorem witness_SubmitStartsTimer_not_empty :
    Inv oneSent ∧ oneSent.slotFree = true ∧ oneSent.inFlight ≠ [] ∧
      ∃ t, exec (.submit [0x62#8]) oneSent = .next t := ⟨witness_inv_oneSent, by decide, by decide, _, rfl⟩
-- O14: one payload with one slot free; the last sequence number
theorem witness_Drain_moves :
    let s := window 3 2 4 [(3, data3)] [[0x64#8], [0x65#8]] true
    s.drainable s.lastAcked = 1 ∧
      (∀ p ∈ s.pending.take (s.drainable s.lastAcked), p.length ≤ s.params.maxPayload.val) ∧
      s.nextSeq.toInt + s.drainable s.lastAcked ≤ 2147483647 := by decide
theorem witness_Drain_overflows :
    (∀ p ∈ lastNumber.pending.take (lastNumber.drainable lastNumber.lastAcked),
        p.length ≤ lastNumber.params.maxPayload.val) ∧
      2147483647 < lastNumber.nextSeq.toInt + lastNumber.drainable lastNumber.lastAcked := by decide
-- O15: the number already acknowledged, in each of the three forms
theorem witness_StaleAck :
    (ReceivesAck (.onAck 1) 1 ∧ ReceivesAck (.netRecv ack1) 1 ∧
      ReceivesAck (.frameAck 0 1 0xFEFE#16 0x01#8 0 []) 1) ∧
      (1 : I32).toInt ≤ allAcked.lastAcked.toInt :=
  ⟨⟨.inl rfl, .inr ⟨ack1, _, rfl, rfl, rfl, rfl⟩, .inr ⟨ack1, _, rfl, rfl, rfl, rfl⟩⟩, by decide⟩
-- O16: the first number not acknowledged yet, with a payload queued
theorem witness_AdvancingAck :
    ReceivesAck (.netRecv ack1) 1 ∧ oneQueued.lastAcked.toInt < (1 : I32).toInt ∧
      (∀ p ∈ oneQueued.pending.take (oneQueued.drainable 1), p.length ≤ oneQueued.params.maxPayload.val) ∧
      oneQueued.nextSeq.toInt + oneQueued.drainable 1 ≤ 2147483647 :=
  ⟨.inr ⟨ack1, _, rfl, rfl, rfl, rfl⟩, by decide, by decide, by decide⟩
-- O17, O18: each case of the net timer effect
theorem witness_AckNetTimer_stale :
    Inv oneSent ∧ (0 : I32).toInt ≤ oneSent.lastAcked.toInt ∧ ∃ t, exec (.onAck 0) oneSent = .next t :=
  ⟨witness_inv_oneSent, by decide, _, rfl⟩
theorem witness_AckNetTimer_restarted :
    Inv oneQueued ∧ oneQueued.lastAcked.toInt < (1 : I32).toInt ∧ oneQueued.pending ≠ [] ∧
      ∃ t, exec (.onAck 1) oneQueued = .next t ∧ t.inFlight ≠ [] :=
  ⟨witness_inv_oneQueued, by decide, by decide, _, rfl, by decide⟩
theorem witness_AckNetTimer_stopped :
    Inv oneSent ∧ oneSent.lastAcked.toInt < (1 : I32).toInt ∧ oneSent.inFlight ≠ [] ∧
      ∃ t, exec (.onAck 1) oneSent = .next t ∧ t.inFlight = [] :=
  ⟨witness_inv_oneSent, by decide, by decide, _, rfl, by decide⟩
theorem witness_AckNetTimer_untouched :
    Inv allAcked ∧ allAcked.lastAcked.toInt < (2 : I32).toInt ∧ allAcked.inFlight = [] ∧
      ∃ t, exec (.onAck 2) allAcked = .next t ∧ t.inFlight = [] :=
  ⟨witness_inv_allAcked, by decide, by decide, _, rfl, by decide⟩
-- O19
theorem witness_AckOfLastSent :
    Inv oneSent ∧ Occupancy oneSent ∧ oneSent.pending = [] ∧
      oneSent.lastAcked.toInt < (1 : I32).toInt ∧ (1 : I32).toInt + 1 = oneSent.nextSeq.toInt :=
  ⟨witness_inv_oneSent, witness_occupancy_oneSent, by decide, by decide, by decide⟩
-- O20
theorem witness_Timeout :
    oneSent.inFlight ≠ [] ∧ allAcked.inFlight = [] ∧ Memory.wf [((1 : I32), data1), (2, data2)] := by decide
-- O21: each operation answers a next state
theorem witness_SendEngine :
    (∃ t, exec (.submit [0x62#8]) oneSent = .next t) ∧ (∃ t, exec (.appSend [0x62#8]) oneSent = .next t) ∧
      (∃ t, exec (.sendNew [0x62#8]) oneSent = .next t) ∧ (∃ t, exec .drain oneSent = .next t) ∧
      (∃ t, exec (.netRecv ack1) oneSent = .next t) ∧ ReceivesAck (.netRecv ack1) 1 ∧
      (∃ t, exec .onTimeout oneSent = .next t) ∧ ∃ t, exec .timerFire oneSent = .next t :=
  ⟨⟨_, rfl⟩, ⟨_, rfl⟩, ⟨_, rfl⟩, ⟨_, rfl⟩, ⟨_, rfl⟩, .inr ⟨ack1, _, rfl, rfl, rfl, rfl⟩, ⟨_, rfl⟩, ⟨_, rfl⟩⟩
-- O22, O23: the packet of V21, in each of the three forms
/-- V40. -/
def packet1 : Packet :=
  { seq := 1, ack := 0, checksum := 0xFE9D#16, ackFlag := false, payloadLength := 1, payload := [0x61#8] }

theorem witness_ReceivesData :
    ReceivesData (.onData packet1) packet1 ∧ ReceivesData (.netRecv data1) packet1 ∧
      ReceivesData (.frameData 1 0 0xFE9D#16 1 [0x61#8]) packet1 :=
  ⟨.inl rfl, .inr ⟨data1, rfl, rfl, rfl⟩, .inr ⟨data1, rfl, rfl, rfl⟩⟩
theorem witness_ExpectedData :
    packet1.seq = (fresh 4).expectedSeq ∧ (fresh 4).expectedSeq.toInt < 2147483647 := by decide
theorem witness_ExpectedData_overflows :
    let s := { fresh 4 with expectedSeq := 2147483647 }
    let p := { packet1 with seq := 2147483647 }
    ReceivesData (.onData p) p ∧ p.seq = s.expectedSeq ∧ s.expectedSeq.toInt = 2147483647 :=
  ⟨.inl rfl, by decide, by decide⟩
theorem witness_UnexpectedData : packet1.seq ≠ ({ fresh 4 with expectedSeq := 2 } : State).expectedSeq := by
  decide
-- O24: each kind, and each of the three forms
theorem witness_Corruption :
    ReceivesCorruption (.onCorruption .checksum) .checksum ∧ ReceivesCorruption (.netRecv []) .truncated ∧
      ReceivesCorruption (.netRecv (data1 ++ [0x00#8])) .length ∧
      ReceivesCorruption (.frameData 0 0 0x0000#16 0 []) .checksum ∧
      ReceivesCorruption (.frameAck 0 1 0x0000#16 0x01#8 0 []) .checksum :=
  ⟨.inl rfl, .inr ⟨_, rfl, rfl⟩, .inr ⟨_, rfl, rfl⟩, .inr ⟨_, rfl, rfl⟩, .inr ⟨_, rfl, rfl⟩⟩
-- O25: two senders that have nothing else in common
theorem witness_ReceiverIgnoresSendState :
    (fresh 4).expectedSeq = oneQueued.expectedSeq ∧ (fresh 4).lastAckSent = oneQueued.lastAckSent ∧
      (∃ p, ReceivesData (.netRecv data1) p) ∧ ∃ t, exec (.netRecv data1) (fresh 4) = .next t :=
  ⟨by decide, by decide, ⟨packet1, .inr ⟨data1, rfl, rfl, rfl⟩⟩, _, rfl⟩
-- O26: data, and a corrupt frame
theorem witness_OneTransmission :
    (∀ p, decodeFrame data1 = .ok p → p.ackFlag = false) ∧ (∃ t, exec (.netRecv data1) oneSent = .next t) ∧
      (∀ p, decodeFrame [] = .ok p → p.ackFlag = false) ∧ ∃ t, exec (.netRecv []) oneSent = .next t := by
  refine ⟨fun p h => ?_, ⟨_, rfl⟩, fun p h => ?_, ⟨_, rfl⟩⟩
  · have hd : decodeFrame data1 = .ok packet1 := rfl
    rw [hd] at h
    cases h
    rfl
  · have hd : decodeFrame [] = .error .truncated := rfl
    rw [hd] at h
    cases h
-- O27: one string for each route
theorem witness_Routes :
    decodeFrame [] = .error .truncated ∧ (∃ p, decodeFrame ack1 = .ok p ∧ p.ackFlag = true) ∧
      ∃ p, decodeFrame data1 = .ok p ∧ p.ackFlag = false := ⟨rfl, ⟨_, rfl, rfl⟩, _, rfl, rfl⟩
-- O28: V52 with the flag 0x00; V41, V50 and a frame summed by hand with the flags 0x01, 0x02 and 0xFF
theorem witness_FlagByte_data :
    (Instr.frameData 0 1 0xFE9D#16 1 [0x61#8]).wellFormed = true ∧
      verify (headerBytes 0 1 0xFE9D#16 0x00#8 1 ++ [0x61#8]) = true := by decide
theorem witness_FlagByte_ack :
    (Instr.frameData 0 1 0xFEFE#16 0 []).wellFormed = true ∧ (0x01#8 : Byte) ≠ 0x00#8 ∧
      verify (headerBytes 0 1 0xFEFE#16 0x01#8 0 ++ []) = true ∧
      (Instr.frameData 0 3 0xFDFC#16 0 []).wellFormed = true ∧ (0x02#8 : Byte) ≠ 0x00#8 ∧
      verify (headerBytes 0 3 0xFDFC#16 0x02#8 0 ++ []) = true ∧
      (Instr.frameData 0 3 0x00FC#16 0 []).wellFormed = true ∧ (0xFF#8 : Byte) ≠ 0x00#8 ∧
      verify (headerBytes 0 3 0x00FC#16 0xFF#8 0 ++ []) = true := by decide
-- O30: the codes beside the three that have a meaning
theorem witness_Reserved :
    (0x00#8 : Byte) ≠ 0x01#8 ∧ (0x00#8 : Byte) ≠ 0x02#8 ∧ (0x00#8 : Byte) ≠ 0x03#8 ∧
      (0x04#8 : Byte) ≠ 0x01#8 ∧ (0x04#8 : Byte) ≠ 0x02#8 ∧ (0x04#8 : Byte) ≠ 0x03#8 ∧
      ({ fresh 4 with input := [.command [0x04#8,
          0x61#8]] } : State).input = .command (0x04#8 :: [0x61#8]) :: [] := by
  decide
-- O31, clause by clause
theorem witness_StepRuns :
    let s := { fresh 4 with input := [.command [0x02#8, 0x61#8], .command [0x03#8]] }
    s.takeTransaction = some (.command [0x02#8, 0x61#8], [.command [0x03#8]]) ∧
      decodeTransaction (.command [0x02#8,
          0x61#8]) = .ok (.netRecv [0x61#8]) ∧ s.holds (.command [0x02#8, 0x61#8]) = false ∧
      (fresh 4).input = [] := by decide
-- O32: a queue at its depth; nothing behind the held APP_SEND, and an acknowledgment behind two
theorem witness_FullQueue :
    fullQueue.slotFree = false ∧ fullQueue.queueFull = true ∧
      ([0x61#8] : Bytes).length ≤ fullQueue.params.maxPayload.val ∧
      (∀ t ∈ [Transaction.command [0x01#8, 0x62#8]], isAppSend t = true) ∧
      isAppSend (.command [0x03#8]) = false ∧ decodeTransaction (.command [0x03#8]) = .ok .timerFire := by decide
-- O34, O35, O36: the smallest window admitted, the largest refused
theorem witness_Construction :
    1 ≤ ({ resetParams with windowSize := 1 } : Params).windowSize ∧
      ({ resetParams with windowSize := 0 } : Params).windowSize ≤ 0 := by decide
-- O38, O39: a code at its boundary and a frame
theorem witness_RoundTrip :
    (Instr.cmdReserved 0x04#8 []).wellFormed = true ∧ encode (.cmdReserved 0x04#8 []) = some (.command,
        [0x04#8]) ∧
      (Instr.frameData 1 0 0xFE9D#16 1 [0x61#8]).wellFormed = true ∧
      encode (.frameData 1 0 0xFE9D#16 1 [0x61#8]) = some (.channel, data1) ∧
      decodeOn .channel data1 = .ok (.frameData 1 0 0xFE9D#16 1 [0x61#8]) := by decide
-- O41, O42, O45, O46: a step that takes a TIMER_FIRE with a frame in flight
theorem witness_Step :
    let s := { oneSent with input := [.command [0x03#8]] }
    Inv s ∧ Occupancy s ∧ s.nextAckIsOfSent ∧ (∀ p rest, s.takeTransaction ≠ some (.reset p, rest)) ∧
      ∃ t, step s = .next t :=
  ⟨inv_withInput witness_inv_oneSent _, occupancy_withInput witness_occupancy_oneSent _,
    (timer_fire_taken oneSent).1, (timer_fire_taken oneSent).2, _, rfl⟩
-- O44: the smallest number never sent
theorem witness_AckOfUnsent :
    Inv oneSent ∧ Occupancy oneSent ∧ oneSent.nextSeq.toInt ≤ (2 : I32).toInt ∧ oneSent.pending = [] ∧
      ∃ t, exec (.onAck 2) oneSent = .next t :=
  ⟨witness_inv_oneSent, witness_occupancy_oneSent, by decide, by decide, _, rfl⟩
-- O47: a free slot, and a full window with room in the queue
theorem witness_EventsComplete :
    (Inv oneSent ∧ oneSent.nextSeq.toInt + oneSent.pending.length < 2147483647 ∧
      oneSent.expectedSeq.toInt < 2147483647 ∧ ([0x62#8] : Bytes).length ≤ oneSent.params.maxPayload.val ∧
      oneSent.slotFree = true) ∧
      Inv oneQueued ∧ oneQueued.nextSeq.toInt + oneQueued.pending.length < 2147483647 ∧
      oneQueued.slotFree = false ∧ oneQueued.queueFull = false :=
  ⟨⟨witness_inv_oneSent, by decide, by decide, by decide, by decide⟩, witness_inv_oneQueued, by decide,
    by decide, by decide⟩
-- O48
theorem witness_WindowOne :
    let s := { windowOne with input := [.command [0x03#8]] }
    Inv s ∧ Occupancy s ∧ s.params.windowSize = 1 ∧ s.nextAckIsOfSent ∧
      (∀ p rest, s.takeTransaction ≠ some (.reset p, rest)) ∧ ∃ t, step s = .next t :=
  ⟨inv_withInput witness_inv_windowOne _, occupancy_withInput witness_occupancy_windowOne _, by decide,
    (timer_fire_taken windowOne).1, (timer_fire_taken windowOne).2, _, rfl⟩

-- O50: each status code, the lengths at both sides of a header
theorem witness_StatusCode :
    let code := fun raw => (after (step { oneSent with input := [.command (0x02#8 :: raw)] })).map (·.statusOutput)
    code data1 = some [0x00#8, 0x00#8] ∧ code ack0 = some [0x00#8, 0x01#8] ∧
      code (data1.take 14) = some [0x00#8, 0x10#8] ∧
      code (List.replicate 15 0x00#8) = some [0x00#8, 0x11#8] ∧
      code (data1 ++ [0x00#8]) = some [0x00#8, 0x12#8] := by decide
theorem witness_StatusCode_taken :
    ({ oneSent with input := [.command (0x02#8 :: ack0)] } : State).takeTransaction =
      some (.command (0x02#8 :: ack0), []) ∧
      ∃ t, step { oneSent with input := [.command (0x02#8 :: ack0)] } = .next t := ⟨rfl, _, rfl⟩

end Sys2Proof.Tests
end

section
/-! Proofs for spec/00_scope.md: a window of one packet sends no data, and a window of no packet is refused. -/

namespace Sys2Proof.Machine

/-! ### Steps that send nothing new -/

/-- R229: from `s` to `t` the sender neither assigned a sequence number, nor moved its window, nor touched the
frame store, and every payload queued in `s` is still queued, in its place. -/
structure QueuesOnly (s t : State) : Prop where
  inFlight : t.inFlight = s.inFlight
  nextSeq : t.nextSeq = s.nextSeq
  lastAcked : t.lastAcked = s.lastAcked
  pending : s.pending <+: t.pending

/-- R199: what the environment has yet to deliver is no part of it. -/
theorem QueuesOnly.of_withInput {s t : State} {rest : List Transaction}
    (h : QueuesOnly { s with input := rest } t) : QueuesOnly s t :=
  ⟨h.inFlight, h.nextSeq, h.lastAcked, h.pending⟩

/-- R132: with no free slot a submitted payload goes to the end of the queue. -/
theorem submit_queuesOnly {p : Bytes} {s t : State} (hf : s.slotFree = false) (h : submit p s = .next t) :
    QueuesOnly s t := by
  rcases submit_next h with ⟨hfree, -⟩ | ⟨-, -, rfl⟩
  · simp [hf] at hfree
  · exact ⟨rfl, rfl, rfl, List.prefix_append _ _⟩

/-- R137: an acknowledgment that does not advance the window removes and drains nothing. -/
theorem onAck_queuesOnly {n : I32} {s t : State} (hn : n.toInt ≤ s.lastAcked.toInt) (h : onAck n s = .next t) :
    QueuesOnly s t := by
  rcases onAck_next h with ⟨hlt, -⟩ | ⟨-, rfl⟩
  · omega
  · rw [ackedKeys_of_stale hn]
    exact ⟨rfl, rfl, rfl, List.prefix_refl _⟩

/-- R139: a timeout transmits stored frames only. -/
theorem onTimeout_queuesOnly {s t : State} (h : onTimeout s = .next t) : QueuesOnly s t := by
  rcases onTimeout_next h with ⟨-, rfl⟩ | ⟨-, rfl⟩ <;> exact ⟨rfl, rfl, rfl, List.prefix_refl _⟩

/-- R160: the Receive Engine leaves the sender's state alone. -/
theorem onData_queuesOnly {p : Packet} {s t : State} (h : onData p s = .next t) : QueuesOnly s t := by
  rcases onData_next h with ⟨-, -, rfl⟩ | ⟨-, rfl⟩ <;> exact ⟨rfl, rfl, rfl, List.prefix_refl _⟩

/-- R172: a received byte string sends nothing new unless it is an acknowledgment that advances the window. -/
theorem receive_queuesOnly {raw : Bytes} {s t : State}
    (hstale : ∀ p, decodeFrame raw = .ok p → p.ackFlag = true → p.ack.toInt ≤ s.lastAcked.toInt)
    (h : receive raw s = .next t) : QueuesOnly s t := by
  rcases receive_next h with ⟨k, -, rfl⟩ | ⟨p, hp, hflag, hack⟩ | ⟨p, -, -, hdata⟩
  · exact ⟨rfl, rfl, rfl, List.prefix_refl _⟩
  · exact onAck_queuesOnly (hstale p hp hflag) hack
  · exact onData_queuesOnly hdata

/-- R229: with no free slot and at most `last_acked + 1` to assign next, no step but construction sends
anything new: every acknowledgment of a sent number is stale. -/
theorem step_queuesOnly {s t : State} (hf : s.slotFree = false) (hnext : s.nextSeq.toInt ≤ s.lastAcked.toInt + 1)
    (hsent : s.nextAckIsOfSent) (hreset : ∀ p rest, s.takeTransaction ≠ some (.reset p, rest))
    (h : step s = .next t) : QueuesOnly s t := by
  rcases step_next h with ⟨-, rfl⟩ | ⟨u, rest, htake, hrun⟩
  · exact ⟨rfl, rfl, rfl, List.prefix_refl _⟩
  apply QueuesOnly.of_withInput (rest := rest)
  rcases hrun with ⟨p, -, happ⟩ | ⟨raw, hdec, hrecv⟩ | ⟨-, htimeout⟩ | ⟨p, rfl, -, -⟩
  · obtain ⟨-, hsubmit⟩ := execAppSend_next happ
    exact submit_queuesOnly hf hsubmit
  · have hstale : ∀ p, decodeFrame raw = .ok p → p.ackFlag = true → p.ack.toInt ≤ s.lastAcked.toInt := by
      intro p hp hflag
      have := hsent u rest raw p htake hdec hp hflag
      omega
    exact receive_queuesOnly hstale hrecv
  · exact onTimeout_queuesOnly htimeout
  · exact absurd htake (hreset p rest)

/-! ### A window of one packet -/

/-- R6, R32, R33(d): under the occupancy identity a window of one leaves `next_seq` one above `last_acked`. -/
theorem Occupancy.nextSeq_of_windowOne {s : State} (hi : Inv s) (ho : Occupancy s) (hw : s.params.windowSize = 1) :
    s.nextSeq.toInt = s.lastAcked.toInt + 1 := by
  have hbelow := ho.ackedBelowNext
  have hbound := hi.windowBound
  omega

/-- R6, R31: so nothing is in flight. -/
theorem Occupancy.inFlight_of_windowOne {s : State} (hi : Inv s) (ho : Occupancy s)
    (hw : s.params.windowSize = 1) : s.inFlight = [] := by
  have hnext := ho.nextSeq_of_windowOne hi hw
  have hcount := ho.count
  exact List.length_eq_zero_iff.1 (by omega)

/-- R6, R131: and no slot is free. -/
theorem Occupancy.slotFree_of_windowOne {s : State} (hi : Inv s) (ho : Occupancy s)
    (hw : s.params.windowSize = 1) : s.slotFree = false := by
  have hnext := ho.nextSeq_of_windowOne hi hw
  rw [Bool.eq_false_iff, Ne, slotFree_iff]
  omega

/-- Settles O48: with a window of one no slot is ever free and every acknowledgment of a sent number is stale,
so no event reaches SEND_NEW. -/
theorem windowOneNeverSendsData : Obligations.WindowOneNeverSendsData := by
  intro s t hi ho hw hsent hreset h
  obtain ⟨hflight, hnext, hlast, hpending⟩ :=
    step_queuesOnly (ho.slotFree_of_windowOne hi hw) (ho.nextSeq_of_windowOne hi hw).le hsent hreset h
  exact ⟨hflight.trans (ho.inFlight_of_windowOne hi hw), hnext, hlast, hpending⟩

/-! ### A window of no packet -/

/-- R6, R195: construction refuses a window size of 0 or less. -/
theorem execReset_of_nonpositive {p : Params} (h : p.windowSize ≤ 0) (s : State) :
    execReset p s = .refused .badParams :=
  if_pos h

/-- Settles O36: RESET is construction, which tests the window size before anything else. -/
theorem nonPositiveWindowIsRefused : Obligations.NonPositiveWindowIsRefused :=
  fun _ s h => execReset_of_nonpositive h s

end Sys2Proof.Machine
end

section
/-! Proofs for spec/10_state.md: the reset values, the invariant, the occupancy identity, and the order in
which the sequence registers move. -/

namespace Sys2Proof.Machine

/-! ### Construction -/

/-- R29, R36: the acknowledgment frame stored at construction, byte by byte. -/
theorem encodeFrame_initialAck : encodeFrame 0 0 true [] =
    [0x00#8, 0x00#8, 0x00#8, 0x00#8, 0x00#8, 0x00#8, 0x00#8, 0x00#8, 0xFE#8, 0xFF#8, 0x01#8,
      0x00#8, 0x00#8, 0x00#8, 0x00#8] := by decide

/-- R220, R6: construction with an admitted window size. -/
theorem execReset_of_positive {p : Params} (h : 1 ≤ p.windowSize) (s : State) :
    execReset p s = .next { State.construct p with input := s.input } :=
  if_neg (by omega)

/-- Settles O34: RESET answers the constructed state, whose fields are R36's table. -/
theorem constructionGivesResetValues : Obligations.ConstructionGivesResetValues :=
  fun _ s hw => ⟨_, execReset_of_positive hw s, rfl, rfl, rfl, rfl, rfl, encodeFrame_initialAck, rfl, rfl⟩

/-- R36: nothing is queued, in flight, armed or emitted after construction, and the stored acknowledgment
is of number 0. -/
theorem inv_construct {p : Params} (hw : 1 ≤ p.windowSize) : Inv (State.construct p) where
  windowPositive := hw
  lastAckedNonneg := (by decide : 0 ≤ (0 : I32).toInt)
  nextSeqPositive := (by decide : 1 ≤ (1 : I32).toInt)
  expectedSeqPositive := (by decide : 1 ≤ (1 : I32).toInt)
  windowBound := hw
  storeOrdered := construct_wf p
  keysAssigned := by simp [State.construct]
  storedFrames := by simp [State.construct]
  queuedMeansFull := by simp [State.construct]
  queuedFit := by simp [State.construct]
  queueBounded := by simp [State.construct]
  lastAckIsPrevious := by simp [State.construct, ackFrame, ackSeqFill]
  timerIffInFlight := rfl
  timerAsCommanded := rfl
  deliveriesCounted := rfl

/-- R31, R36: the interval between 0 and 1 is empty, as the store is. -/
theorem occupancy_construct (p : Params) : Occupancy (State.construct p) where
  ackedBelowNext := (by decide : (0 : I32).toInt < (1 : I32).toInt)
  keysAreInterval k := by
    have h0 : (State.construct p).lastAcked.toInt = 0 := rfl
    have h1 : (State.construct p).nextSeq.toInt = 1 := rfl
    rw [h0, h1]
    constructor
    · rintro ⟨f, hf⟩
      cases hf
    · omega
  count := rfl

/-- Settles O40: `resetParams` has a window of 4. -/
theorem invariantHoldsAfterConstruction : Obligations.InvariantHoldsAfterConstruction :=
  ⟨fun _ hw => inv_construct hw, inv_construct (by decide)⟩

/-- Settles O43: the identity after construction needs nothing of the parameters. -/
theorem occupancyHoldsAfterConstruction : Obligations.OccupancyHoldsAfterConstruction :=
  ⟨occupancy_construct, occupancy_construct resetParams⟩

/-! ### One new packet

SUBMIT on a free slot and each iteration of DRAIN's loop do the same to the window: `Sends` says what, once. -/

/-- R132, R133, R134: from `s` to `t` the payload `p` took the free slot under the number `next_seq`; payloads
may have left the front of the queue, and the Receive State and the deliveries are as before. -/
structure Sends (p : Bytes) (s t : State) : Prop where
  free : s.slotFree = true
  fits : p.length ≤ s.params.maxPayload.val
  notLast : s.nextSeq.toInt < 2147483647
  params : t.params = s.params
  lastAcked : t.lastAcked = s.lastAcked
  nextSeq : t.nextSeq = s.nextSeq + 1
  inFlight : t.inFlight = Memory.insert s.inFlight s.nextSeq (dataFrame s.nextSeq p)
  pending : t.pending <:+ s.pending
  expectedSeq : t.expectedSeq = s.expectedSeq
  lastAckSent : t.lastAckSent = s.lastAckSent
  delivered : delivered t.actions = delivered s.actions

/-- R37: the number after the one just assigned. -/
theorem Sends.toInt_nextSeq {p : Bytes} {s t : State} (h : Sends p s t) :
    t.nextSeq.toInt = s.nextSeq.toInt + 1 := by
  rw [h.nextSeq, toInt_add_one h.notLast]

/-- R176: what delivers nothing leaves the deliveries as they are. -/
theorem delivered_append_of_nil {new : List Action} (h : delivered new = []) (l : List Action) :
    delivered (l ++ new) = delivered l := by
  rw [delivered_append, h, List.append_nil]

/-- R175: retransmissions deliver nothing. -/
theorem delivered_transmissions (m : Memory) : delivered (m.map fun e => Action.tx e.2) = [] := by
  simp [delivered]

/-- R132: SUBMIT on a free slot sends the payload. -/
theorem submit_sends {p : Bytes} {s t : State} (hf : s.slotFree = true) (h : submit p s = .next t) :
    Sends p s t := by
  rcases submit_next h with ⟨-, hfits, hlast, rfl⟩ | ⟨hfull, -⟩
  · rw [startIfOnly_eq]
    refine ⟨hf, hfits, hlast, rfl, rfl, rfl, rfl, List.suffix_refl _, rfl, rfl, ?_⟩
    rw [State.setStatus_actions, delivered_append_of_nil, delivered_append_of_nil rfl]
    split <;> rfl
  · simp [hf] at hfull

/-- R134: the state after one iteration of DRAIN's loop that sends `p` and leaves `rest` queued. -/
def State.sendQueued (p : Bytes) (rest : List Bytes) (s : State) : State :=
  { s with
    pending := rest
    nextSeq := s.nextSeq + 1
    inFlight := Memory.insert s.inFlight s.nextSeq (dataFrame s.nextSeq p)
    actions := s.actions ++ [.tx (dataFrame s.nextSeq p)] }

/-- R134: to show a property of DRAIN, show that sending the payload at the front of the queue keeps it. -/
theorem drain_induction {P : State → Prop}
    (one : ∀ (p : Bytes) (rest : List Bytes) (s : State),
      P s → Sends p s (s.sendQueued p rest) → P (s.sendQueued p rest))
    {s t : State} (h : drain s = .next t) (hs : P s) : P t ∧ (t.pending ≠ [] → t.slotFree = false) := by
  refine drainQueue_induction (fun p rest u hu hpending hfree hfits hlast => one p rest u hu ?_) rfl h hs
  have hrest : rest <:+ u.pending := hpending ▸ List.suffix_cons p rest
  exact ⟨hfree, hfits, hlast, rfl, rfl, rfl, rfl, hrest, rfl, rfl, delivered_append_of_nil rfl _⟩

/-! ### The sequence registers -/

/-- R22, R23, R25, R30: from `s` to `t` no sequence register is lowered and no parameter changed. -/
structure NeverLowers (s t : State) : Prop where
  lastAcked : s.lastAcked.toInt ≤ t.lastAcked.toInt
  nextSeq : s.nextSeq.toInt ≤ t.nextSeq.toInt
  expectedSeq : s.expectedSeq.toInt ≤ t.expectedSeq.toInt
  params : t.params = s.params

theorem NeverLowers.refl (s : State) : NeverLowers s s := ⟨le_rfl, le_rfl, le_rfl, rfl⟩

theorem NeverLowers.trans {s t u : State} (h : NeverLowers s t) (h' : NeverLowers t u) : NeverLowers s u :=
  ⟨h.lastAcked.trans h'.lastAcked, h.nextSeq.trans h'.nextSeq, h.expectedSeq.trans h'.expectedSeq,
    h'.params.trans h.params⟩

theorem Sends.neverLowers {p : Bytes} {s t : State} (h : Sends p s t) : NeverLowers s t where
  lastAcked := by rw [h.lastAcked]
  nextSeq := by rw [h.toInt_nextSeq]; omega
  expectedSeq := by rw [h.expectedSeq]
  params := h.params

theorem submit_neverLowers {p : Bytes} {s t : State} (h : submit p s = .next t) : NeverLowers s t := by
  rcases submit_next h with ⟨hf, -⟩ | ⟨-, -, rfl⟩
  · exact (submit_sends hf h).neverLowers
  · exact ⟨le_rfl, le_rfl, le_rfl, rfl⟩

theorem drain_neverLowers {s t : State} (h : drain s = .next t) : NeverLowers s t :=
  (drain_induction (fun _ _ _ hu hsend => hu.trans hsend.neverLowers) h (.refl s)).1

/-- R135: `last_acked` is written only where the acknowledgment is above it. -/
theorem onAck_neverLowers {n : I32} {s t : State} (h : onAck n s = .next t) : NeverLowers s t := by
  rcases onAck_next h with ⟨hlt, u, hu, rfl⟩ | ⟨-, rfl⟩
  · have hbefore : NeverLowers s (beforeDrain n s) := by
      rw [beforeDrain_eq]
      exact ⟨hlt.le, le_rfl, le_rfl, rfl⟩
    rw [restartIfInFlight_eq]
    obtain ⟨hlast, hnext, hexp, hparams⟩ := hbefore.trans (drain_neverLowers hu)
    exact ⟨hlast, hnext, hexp, hparams⟩
  · rw [removeEach_eq]
    exact ⟨le_rfl, le_rfl, le_rfl, rfl⟩

theorem onTimeout_neverLowers {s t : State} (h : onTimeout s = .next t) : NeverLowers s t := by
  rcases onTimeout_next h with ⟨-, rfl⟩ | ⟨-, rfl⟩ <;> exact ⟨le_rfl, le_rfl, le_rfl, rfl⟩

theorem onData_neverLowers {p : Packet} {s t : State} (h : onData p s = .next t) : NeverLowers s t := by
  rcases onData_next h with ⟨-, hlt, rfl⟩ | ⟨-, rfl⟩
  · have hexp : s.expectedSeq.toInt ≤ (s.expectedSeq + 1).toInt := by
      rw [toInt_add_one hlt]; omega
    exact ⟨le_rfl, le_rfl, hexp, rfl⟩
  · exact ⟨le_rfl, le_rfl, le_rfl, rfl⟩

theorem receive_neverLowers {raw : Bytes} {s t : State} (h : receive raw s = .next t) : NeverLowers s t := by
  rcases receive_next h with ⟨k, -, rfl⟩ | ⟨p, -, -, hack⟩ | ⟨p, -, -, hdata⟩
  · exact ⟨le_rfl, le_rfl, le_rfl, rfl⟩
  · exact onAck_neverLowers hack
  · exact onData_neverLowers hdata

/-- R199: taking a transaction from the input is no part of it. -/
theorem NeverLowers.of_withInput {s t : State} {rest : List Transaction}
    (h : NeverLowers { s with input := rest } t) : NeverLowers s t :=
  ⟨h.lastAcked, h.nextSeq, h.expectedSeq, h.params⟩

theorem step_neverLowers {s t : State} (hreset : ∀ p rest, s.takeTransaction ≠ some (.reset p, rest))
    (h : step s = .next t) : NeverLowers s t := by
  rcases step_next h with ⟨-, rfl⟩ | ⟨u, rest, htake, hrun⟩
  · exact .refl t
  apply NeverLowers.of_withInput (rest := rest)
  rcases hrun with ⟨p, -, happ⟩ | ⟨raw, -, hrecv⟩ | ⟨-, htimeout⟩ | ⟨p, rfl, -, -⟩
  · exact submit_neverLowers (execAppSend_next happ).2
  · exact receive_neverLowers hrecv
  · exact onTimeout_neverLowers htimeout
  · exact absurd htake (hreset p rest)

/-- Settles O45: every write of a sequence register is an increment inside the range, or the advance of
`last_acked` to a number above it. -/
theorem sequenceRegistersNeverDecrease : Obligations.SequenceRegistersNeverDecrease := by
  intro s t hreset h
  obtain ⟨hlast, hnext, hexp, hparams⟩ := step_neverLowers hreset h
  exact ⟨hlast, hnext, hexp, hparams⟩

/-! ### The invariant, in the parts the operations keep -/

/-- The Send State's part of the invariant; what R33(b) adds does not hold inside ON_ACK. -/
structure SenderInv (s : State) : Prop where
  windowPositive : 1 ≤ s.params.windowSize
  lastAckedNonneg : 0 ≤ s.lastAcked.toInt
  nextSeqPositive : 1 ≤ s.nextSeq.toInt
  windowBound : s.nextSeq.toInt - s.lastAcked.toInt ≤ s.params.windowSize
  storeOrdered : Memory.wf s.inFlight
  keysAssigned : ∀ e ∈ s.inFlight, 1 ≤ e.1.toInt ∧ e.1.toInt < s.nextSeq.toInt
  storedFrames : ∀ e ∈ s.inFlight, ∃ p : Bytes, p.length ≤ s.params.maxPayload.val ∧ e.2 = dataFrame e.1 p
  queuedFit : ∀ p ∈ s.pending, p.length ≤ s.params.maxPayload.val
  queueBounded : ∀ d, s.params.pendingDepth = some d → s.pending.length ≤ d

/-- The Receive State's part of the invariant. -/
structure ReceiverInv (s : State) : Prop where
  expectedSeqPositive : 1 ≤ s.expectedSeq.toInt
  lastAckIsPrevious : s.lastAckSent = ackFrame (s.expectedSeq - 1)
  deliveriesCounted : ((delivered s.actions).length : Int) = s.expectedSeq.toInt - 1

theorem Inv.senderInv {s : State} (h : Inv s) : SenderInv s := { h with }

theorem Inv.receiverInv {s : State} (h : Inv s) : ReceiverInv s := { h with }

/-- R32, R33(a), R56: the new entry is the data frame of the highest number assigned, and it took a slot that
was free. -/
theorem Sends.senderInv {p : Bytes} {s t : State} (h : Sends p s t) (hi : SenderInv s) : SenderInv t := by
  have hnext := h.toInt_nextSeq
  have hpositive := hi.nextSeqPositive
  have hfree := (slotFree_iff s).1 h.free
  constructor
  case windowPositive => rw [h.params]; exact hi.windowPositive
  case lastAckedNonneg => rw [h.lastAcked]; exact hi.lastAckedNonneg
  case nextSeqPositive => omega
  case windowBound => rw [h.params, h.lastAcked]; omega
  case storeOrdered => rw [h.inFlight]; exact Memory.insert_wf hi.storeOrdered _ _
  case keysAssigned =>
    intro e he
    rcases Memory.mem_insert (h.inFlight ▸ he) with rfl | hold
    · dsimp only; omega
    · have := hi.keysAssigned e hold
      omega
  case storedFrames =>
    intro e he
    rw [h.params]
    rcases Memory.mem_insert (h.inFlight ▸ he) with rfl | hold
    · exact ⟨p, h.fits, rfl⟩
    · exact hi.storedFrames e hold
  case queuedFit =>
    rw [h.params]
    exact fun q hq => hi.queuedFit q (h.pending.subset hq)
  case queueBounded =>
    rw [h.params]
    exact fun d hd => h.pending.length_le.trans (hi.queueBounded d hd)

/-- R160: sending leaves the Receive State alone. -/
theorem Sends.receiverInv {p : Bytes} {s t : State} (h : Sends p s t) (hi : ReceiverInv s) : ReceiverInv t where
  expectedSeqPositive := by rw [h.expectedSeq]; exact hi.expectedSeqPositive
  lastAckIsPrevious := by rw [h.expectedSeq, h.lastAckSent]; exact hi.lastAckIsPrevious
  deliveriesCounted := by rw [h.expectedSeq, h.delivered]; exact hi.deliveriesCounted

/-- R56: what is sent goes to the end of the store. -/
theorem Sends.inFlight_eq_append {p : Bytes} {s t : State} (h : Sends p s t)
    (hkeys : ∀ e ∈ s.inFlight, e.1.toInt < s.nextSeq.toInt) :
    t.inFlight = s.inFlight ++ [(s.nextSeq, dataFrame s.nextSeq p)] := by
  rw [h.inFlight, Memory.insert_largest _ hkeys]

/-! ### The timer bit -/

/-- R34, R181: the ghost bit after actions of a net effect. -/
def NetTimer.armed (e : NetTimer) (before : Bool) : Bool :=
  match e with
  | .untouched => before
  | .stopped => false
  | .restarted => true

/-- R34: a bit that follows the net effect of new actions stays what all the actions commanded. -/
theorem timerAsCommanded_append {l : List Action} {b : Bool} (new : List Action)
    (h : b = decide (netTimer l = .restarted)) :
    (netTimer new).armed b = decide (netTimer (l ++ new) = .restarted) := by
  rw [netTimer_append]
  cases netTimer new with
  | untouched => exact h
  | stopped => rfl
  | restarted => rfl

/-! ### SUBMIT -/

/-- R132, R205: SUBMIT starts the timer exactly where nothing was in flight. -/
theorem submit_inv {p : Bytes} {s t : State} (hi : Inv s) (hp : p.length ≤ s.params.maxPayload.val)
    (h : submit p s = .next t) : Inv t := by
  rcases submit_next h with ⟨hf, -, -, ht⟩ | ⟨hf, hroom, rfl⟩
  · have hsend := submit_sends hf h
    have hkeys : ∀ e ∈ s.inFlight, e.1.toInt < s.nextSeq.toInt := fun e he => (hi.keysAssigned e he).2
    have hstore := Memory.insert_largest (dataFrame s.nextSeq p) hkeys
    have hempty : s.pending = [] := by
      by_contra hne
      simp [hi.queuedMeansFull hne] at hf
    rw [hstore, startIfOnly_eq] at ht
    have hpending : t.pending = [] := by rw [ht]; exact hempty
    have harmed : t.timerArmed = true := by
      rw [ht, State.setStatus_timerArmed]
      by_cases hnone : s.inFlight = []
      · simp [hnone]
      · simp [hi.timerIffInFlight, hnone]
    refine { hsend.senderInv hi.senderInv, hsend.receiverInv hi.receiverInv with
      queuedMeansFull := fun hne => absurd hpending hne
      timerIffInFlight := by simp [harmed, hsend.inFlight_eq_append hkeys]
      timerAsCommanded := ?_ }
    have htx := timerAsCommanded_append [.tx (dataFrame s.nextSeq p)] hi.timerAsCommanded
    by_cases hone : (s.inFlight ++ [(s.nextSeq, dataFrame s.nextSeq p)]).length = 1
    · simp only [hone, if_true] at ht
      rw [ht]
      exact timerAsCommanded_append [.timerStart s.params.timeout] htx
    · simp only [hone, if_false, List.append_nil] at ht
      rw [ht]
      exact htx
  · refine { hi with queuedMeansFull := fun _ => hf, queuedFit := ?_, queueBounded := ?_ }
    · intro q hq
      rcases List.mem_append.1 hq with hq | hq
      · exact hi.queuedFit q hq
      · rw [List.mem_singleton.1 hq]; exact hp
    · intro d hd
      have := (queueFull_eq_false s).1 hroom d hd
      simpa using this

/-! ### ON_ACK -/

/-- What holds while ON_ACK drains. In place of R205: the timer is armed with nothing in flight only where
DRAIN is about to send. -/
structure DrainInv (s : State) : Prop extends SenderInv s, ReceiverInv s where
  timerAsCommanded : s.timerArmed = decide (netTimer s.actions = .restarted)
  armedMeansSending : s.inFlight = [] → s.timerArmed = true → s.pending ≠ [] ∧ s.slotFree = true

/-- R56: nothing is lost by an insertion, so a store just written is not empty. -/
theorem Memory.insert_ne_nil (m : Memory) (k : I32) (f : Bytes) : Memory.insert m k f ≠ [] := by
  intro hnil
  have hget := Memory.get?_insert_self m k f
  rw [hnil] at hget
  cases hget

/-- R134: DRAIN keeps it, and stops only on an empty queue or a full window. -/
theorem drain_drainInv {s t : State} (hi : DrainInv s) (h : drain s = .next t) :
    DrainInv t ∧ (t.pending ≠ [] → t.slotFree = false) := by
  refine drain_induction (fun p rest u hu hsend => ?_) h hi
  exact { hsend.senderInv hu.toSenderInv, hsend.receiverInv hu.toReceiverInv with
    timerAsCommanded := timerAsCommanded_append [.tx _] hu.timerAsCommanded
    armedMeansSending := fun hnil => absurd hnil (Memory.insert_ne_nil _ _ _) }

/-- R135: an acknowledgment only removes entries. -/
theorem Memory.mem_of_mem_unacked {m : Memory} {lastAcked n : I32} {e : I32 × Bytes}
    (h : e ∈ m.unacked lastAcked n) : e ∈ m := List.mem_of_mem_filter h

/-- R32: moving `last_acked` up to `n` opens the window further. -/
theorem SenderInv.acked {s : State} (h : SenderInv s) {n : I32} (hlt : s.lastAcked.toInt < n.toInt) :
    SenderInv { s with lastAcked := n, inFlight := s.inFlight.unacked s.lastAcked n } :=
  { h with
    lastAckedNonneg := h.lastAckedNonneg.trans hlt.le
    windowBound := by
      have := h.windowBound
      dsimp only
      omega
    storeOrdered := Memory.unacked_wf h.storeOrdered _ _
    keysAssigned := fun e he => h.keysAssigned e (Memory.mem_of_mem_unacked he)
    storedFrames := fun e he => h.storedFrames e (Memory.mem_of_mem_unacked he) }

/-- R135: an advancing acknowledgment leaves a slot free, so DRAIN sends wherever something is queued; where
nothing is queued the timer was stopped with the last entry. -/
theorem beforeDrain_drainInv {n : I32} {s : State} (hi : Inv s) (hlt : s.lastAcked.toInt < n.toInt) :
    DrainInv (beforeDrain n s) := by
  rw [beforeDrain_eq]
  generalize hremoved : s.inFlight.length - (s.inFlight.unacked s.lastAcked n).length = removed
  refine { hi.senderInv.acked hlt, hi.receiverInv with
    deliveriesCounted := ?deliveriesCounted
    timerAsCommanded := ?timerAsCommanded
    armedMeansSending := ?armedMeansSending }
  case deliveriesCounted =>
    rw [delivered_append_of_nil (by split <;> rfl), delivered_append_of_nil (delivered_stops _)]
    exact hi.deliveriesCounted
  case timerAsCommanded =>
    have hstops := timerAsCommanded_append (.replicate removed .timerStop) hi.timerAsCommanded
    rw [netTimer_stops] at hstops
    by_cases hqueued : s.pending = []
    · simp only [hqueued, ne_eq, not_true_eq_false, if_true, if_false, List.append_nil]
      rw [← hstops]
      split <;> rfl
    · simp only [hqueued, ne_eq, not_false_eq_true, if_true, if_false]
      exact timerAsCommanded_append [.timerStop, .timerStart s.params.timeout] hstops
  case armedMeansSending =>
    intro hnil harmed
    by_cases hqueued : s.pending = []
    · exfalso
      have hlength : (s.inFlight.unacked s.lastAcked n).length = 0 := List.length_eq_zero_iff.2 hnil
      by_cases hnone : s.inFlight = []
      · simp [hqueued, hnone, hi.timerIffInFlight] at harmed
      · have hsome := List.length_pos_iff.2 hnone
        have hnonzero : removed ≠ 0 := by omega
        simp [hqueued, hnonzero] at harmed
    · refine ⟨hqueued, (slotFree_iff _).2 ?_⟩
      have := hi.windowBound
      dsimp only
      omega

/-- R135, R205: the restart after draining makes the timer run exactly where something is in flight. -/
theorem DrainInv.inv_restartIfInFlight {u : State} (hi : DrainInv u)
    (hfull : u.pending ≠ [] → u.slotFree = false) : Inv ((restartIfInFlight u).setStatus .ok) := by
  by_cases hnone : u.inFlight = []
  · have hrestart : restartIfInFlight u = u := if_pos (by simp [hnone])
    have hunarmed : u.timerArmed = false := by
      by_contra harmed
      obtain ⟨hqueued, hfree⟩ := hi.armedMeansSending hnone (by simpa using harmed)
      simp [hfull hqueued] at hfree
    rw [hrestart]
    exact { hi with
      queuedMeansFull := hfull
      timerIffInFlight := by simp [hunarmed, hnone] }
  · have hrestart : restartIfInFlight u = u.restartTimer := if_neg (by simp [hnone])
    rw [hrestart]
    refine { hi with
      queuedMeansFull := hfull
      timerIffInFlight := by simp [hnone]
      timerAsCommanded := ?_
      deliveriesCounted := ?_ }
    · rw [State.setStatus_actions, State.restartTimer_actions]
      exact timerAsCommanded_append [.timerStop, .timerStart u.params.timeout] hi.timerAsCommanded
    · rw [State.setStatus_actions, State.restartTimer_actions, delivered_append_of_nil rfl]
      exact hi.deliveriesCounted

theorem onAck_inv {n : I32} {s t : State} (hi : Inv s) (h : onAck n s = .next t) : Inv t := by
  rcases onAck_next h with ⟨hlt, u, hu, rfl⟩ | ⟨hle, rfl⟩
  · obtain ⟨hdrained, hfull⟩ := drain_drainInv (beforeDrain_drainInv hi hlt) hu
    exact hdrained.inv_restartIfInFlight hfull
  · rw [ackedKeys_of_stale hle]
    exact { hi with }

/-! ### The other events, and a step -/

/-- R139, R205: a timeout with something in flight restarts the timer, and one with nothing stops it. -/
theorem onTimeout_inv {s t : State} (hi : Inv s) (h : onTimeout s = .next t) : Inv t := by
  rcases onTimeout_next h with ⟨hnone, rfl⟩ | ⟨hsome, rfl⟩
  · exact { hi with
      timerIffInFlight := by simp [hnone]
      timerAsCommanded := timerAsCommanded_append [.timerStop] hi.timerAsCommanded
      deliveriesCounted := by
        rw [State.setStatus_actions, State.emit_actions, delivered_append_of_nil rfl]
        exact hi.deliveriesCounted }
  · refine { hi with
      timerIffInFlight := by simp [hsome]
      timerAsCommanded := ?_
      deliveriesCounted := ?_ }
    · have hrestart := timerAsCommanded_append [.timerStop, .timerStart s.params.timeout] hi.timerAsCommanded
      have hresend := timerAsCommanded_append (s.inFlight.map fun e => .tx e.2) hrestart
      rw [netTimer_transmissions] at hresend
      rw [State.setStatus_actions, State.restartTimer_actions]
      exact hresend
    · rw [State.setStatus_actions, State.restartTimer_actions,
        delivered_append_of_nil (delivered_transmissions _), delivered_append_of_nil rfl]
      exact hi.deliveriesCounted

/-- R162, R163: transmitting the stored acknowledgment again changes nothing the invariant speaks of. -/
theorem resendLastAck_inv {s : State} (hi : Inv s) (st : Status) : Inv (s.resendLastAck.setStatus st) :=
  { hi with
    timerAsCommanded := timerAsCommanded_append [.tx s.lastAckSent] hi.timerAsCommanded
    deliveriesCounted := by
      rw [State.setStatus_actions, State.resendLastAck_actions, delivered_append_of_nil rfl]
      exact hi.deliveriesCounted }

/-- R161, R164: one delivery and one step of `expected_seq`. -/
theorem onData_inv {p : Packet} {s t : State} (hi : Inv s) (h : onData p s = .next t) : Inv t := by
  rcases onData_next h with ⟨-, hlt, rfl⟩ | ⟨-, rfl⟩
  · have hexp := toInt_add_one hlt
    have hpositive := hi.expectedSeqPositive
    have hcount := hi.deliveriesCounted
    exact { hi with
      expectedSeqPositive := by dsimp only; omega
      lastAckIsPrevious := by simp
      timerAsCommanded := timerAsCommanded_append [.deliver p.payload, .tx _] hi.timerAsCommanded
      deliveriesCounted := by
        have hone : delivered [.deliver p.payload, .tx (ackFrame s.expectedSeq)] = [p.payload] := rfl
        simp only [delivered_append, hone, List.length_append, List.length_singleton]
        omega }
  · exact resendLastAck_inv hi .ok

theorem receive_inv {raw : Bytes} {s t : State} (hi : Inv s) (h : receive raw s = .next t) : Inv t := by
  rcases receive_next h with ⟨k, -, rfl⟩ | ⟨p, -, -, hack⟩ | ⟨p, -, -, hdata⟩
  · exact resendLastAck_inv hi (statusOf k)
  · exact onAck_inv hi hack
  · exact onData_inv hi hdata

/-- Settles O41: each event of a step keeps the invariant; ON_ACK through `DrainInv`, which holds inside it. -/
theorem everyStepKeepsInvariant : Obligations.EveryStepKeepsInvariant := by
  intro s t hi h
  rcases step_next h with ⟨-, rfl⟩ | ⟨u, rest, -, hrun⟩
  · exact hi
  have hinput : Inv { s with input := rest } := { hi with }
  rcases hrun with ⟨p, -, happ⟩ | ⟨raw, -, hrecv⟩ | ⟨-, htimeout⟩ | ⟨p, -, hw, rfl⟩
  · obtain ⟨hfits, hsubmit⟩ := execAppSend_next happ
    exact submit_inv hinput hfits hsubmit
  · exact receive_inv hinput hrecv
  · exact onTimeout_inv hinput htimeout
  · exact { inv_construct hw with }

/-! ### The occupancy identity -/

/-- R229: a step that only queues leaves the identity as it is. -/
theorem QueuesOnly.occupancy {s t : State} (h : QueuesOnly s t) (ho : Occupancy s) : Occupancy t where
  ackedBelowNext := by rw [h.lastAcked, h.nextSeq]; exact ho.ackedBelowNext
  keysAreInterval := by rw [h.inFlight, h.lastAcked, h.nextSeq]; exact ho.keysAreInterval
  count := by rw [h.inFlight, h.lastAcked, h.nextSeq]; exact ho.count

/-- R31: the packet sent extends the interval by one at its upper end. -/
theorem Sends.occupancy {p : Bytes} {s t : State} (h : Sends p s t) (ho : Occupancy s) : Occupancy t := by
  have hbelow := ho.ackedBelowNext
  have hcount := ho.count
  have hnext := h.toInt_nextSeq
  have hstore := h.inFlight_eq_append fun e he => ((ho.keysAreInterval e.1).1 ⟨e.2, he⟩).2
  have hkeys : ∀ k : I32, (∃ f, (k, f) ∈ t.inFlight) ↔ (∃ f, (k, f) ∈ s.inFlight) ∨ k = s.nextSeq := by
    intro k
    simp [hstore, exists_or]
  constructor
  case ackedBelowNext => rw [h.lastAcked]; omega
  case keysAreInterval =>
    intro k
    rw [hkeys, ho.keysAreInterval, ← BitVec.toInt_inj, h.lastAcked]
    omega
  case count =>
    rw [h.lastAcked, hstore, List.length_append, List.length_singleton]
    omega

/-- R31, R56: a store in canonical form whose keys are the numbers strictly between `a` and `b` has one entry
for each of them. -/
theorem Memory.length_of_keys {m : Memory} (hw : Memory.wf m) {a b : I32} (hab : a.toInt < b.toInt)
    (hkeys : ∀ k : I32, (∃ f, (k, f) ∈ m) ↔ a.toInt < k.toInt ∧ k.toInt < b.toInt) :
    (m.length : Int) = b.toInt - a.toInt - 1 := by
  have hnodup : (m.map (·.1.toInt)).Nodup :=
    List.pairwise_map.2 (hw.imp fun hlt => ne_of_lt hlt)
  have hset : (m.map (·.1.toInt)).toFinset = Finset.Ioo a.toInt b.toInt := by
    ext x
    rw [List.mem_toFinset, List.mem_map, Finset.mem_Ioo]
    constructor
    · rintro ⟨⟨k, f⟩, hmem, rfl⟩
      exact (hkeys k).1 ⟨f, hmem⟩
    · intro hx
      have hlow := BitVec.le_toInt a
      have hhigh := BitVec.toInt_lt (x := b)
      have hval : (BitVec.ofInt 32 x).toInt = x :=
        BitVec.toInt_ofInt_eq_self (by decide) (by omega) (by omega)
      obtain ⟨f, hmem⟩ := (hkeys (BitVec.ofInt 32 x)).2 (by rwa [hval])
      exact ⟨_, hmem, hval⟩
  have hcard := List.toFinset_card_of_nodup hnodup
  rw [hset, Int.card_Ioo, List.length_map] at hcard
  omega

/-- R135, R31: an acknowledgment of a sent number cuts the interval off at that number. -/
theorem beforeDrain_occupancy {n : I32} {s : State} (hi : Inv s) (ho : Occupancy s)
    (hlt : s.lastAcked.toInt < n.toInt) (hsent : n.toInt < s.nextSeq.toInt) :
    Occupancy (beforeDrain n s) := by
  have hkeys : ∀ k : I32, (∃ f, (k, f) ∈ s.inFlight.unacked s.lastAcked n) ↔
      n.toInt < k.toInt ∧ k.toInt < s.nextSeq.toInt := by
    intro k
    have hold := ho.keysAreInterval k
    simp only [Memory.unacked, List.mem_filter, exists_and_right, hold, Bool.not_eq_true',
      Bool.and_eq_false_iff, decide_eq_false_iff_not]
    omega
  rw [beforeDrain_eq]
  exact ⟨hsent, hkeys, Memory.length_of_keys (Memory.unacked_wf hi.storeOrdered _ _) hsent hkeys⟩

/-- R135: DRAIN only sends. -/
theorem drain_occupancy {s t : State} (ho : Occupancy s) (h : drain s = .next t) : Occupancy t :=
  (drain_induction (fun _ _ _ hu hsend => hsend.occupancy hu) h ho).1

theorem onAck_occupancy {n : I32} {s t : State} (hi : Inv s) (ho : Occupancy s)
    (hsent : n.toInt < s.nextSeq.toInt) (h : onAck n s = .next t) : Occupancy t := by
  rcases onAck_next h with ⟨hlt, u, hu, rfl⟩ | ⟨hle, -⟩
  · obtain ⟨hbelow, hkeys, hcount⟩ := drain_occupancy (beforeDrain_occupancy hi ho hlt hsent) hu
    rw [restartIfInFlight_eq]
    exact ⟨hbelow, hkeys, hcount⟩
  · exact (onAck_queuesOnly hle h).occupancy ho

theorem submit_occupancy {p : Bytes} {s t : State} (ho : Occupancy s) (h : submit p s = .next t) :
    Occupancy t := by
  cases hf : s.slotFree with
  | true => exact (submit_sends hf h).occupancy ho
  | false => exact (submit_queuesOnly hf h).occupancy ho

theorem receive_occupancy {raw : Bytes} {s t : State} (hi : Inv s) (ho : Occupancy s)
    (hsent : ∀ p, decodeFrame raw = .ok p → p.ackFlag = true → p.ack.toInt < s.nextSeq.toInt)
    (h : receive raw s = .next t) : Occupancy t := by
  rcases receive_next h with ⟨k, -, rfl⟩ | ⟨p, hp, hflag, hack⟩ | ⟨p, -, -, hdata⟩
  · exact { ho with }
  · exact onAck_occupancy hi ho (hsent p hp hflag) hack
  · exact (onData_queuesOnly hdata).occupancy ho

theorem step_occupancy {s t : State} (hi : Inv s) (ho : Occupancy s) (hsent : s.nextAckIsOfSent)
    (h : step s = .next t) : Occupancy t := by
  rcases step_next h with ⟨-, rfl⟩ | ⟨u, rest, htake, hrun⟩
  · exact ho
  have hinput : Inv { s with input := rest } := { hi with }
  have hoinput : Occupancy { s with input := rest } := { ho with }
  rcases hrun with ⟨p, -, happ⟩ | ⟨raw, hdec, hrecv⟩ | ⟨-, htimeout⟩ | ⟨p, -, -, rfl⟩
  · exact submit_occupancy hoinput (execAppSend_next happ).2
  · exact receive_occupancy hinput hoinput (fun p => hsent u rest raw p htake hdec) hrecv
  · exact (onTimeout_queuesOnly htimeout).occupancy hoinput
  · exact { occupancy_construct p with }

/-- Settles O42: sending extends the interval of keys above, an acknowledgment of a sent number cuts it below,
and the window bound of the next state limits its length. -/
theorem everyQualifiedStepKeepsOccupancy : Obligations.EveryQualifiedStepKeepsOccupancy := by
  intro s t hi ho hsent h
  have hocc := step_occupancy hi ho hsent h
  have hbound := (everyStepKeepsInvariant s t hi h).windowBound
  refine ⟨hocc, ?_⟩
  rw [hocc.count]
  omega

end Sys2Proof.Machine
end

section
/-! Proofs for spec/20_memory.md: a full queue holds an APP_SEND and stops no step, and no stored frame is
modified. -/

namespace Sys2Proof.Machine

/-! ### What a step runs -/

/-- R170: a step runs the transaction it takes. -/
theorem step_of_take {s : State} {u : Transaction} {rest : List Transaction} {i : Instr}
    (htake : s.takeTransaction = some (u, rest)) (hdec : decodeTransaction u = .ok i) :
    step s = exec i { s with input := rest } := by
  simp only [step, htake, hdec]

/-- R24: with nothing to take the block stays as it is. -/
theorem step_of_take_none {s : State} (htake : s.takeTransaction = none) : step s = .next s := by
  simp only [step, htake]

/-- R170, R183: everything a step can do where it is refused. -/
theorem step_refused {s : State} {r : Refusal} (h : step s = .refused r) :
    (∃ e, r = .malformedTransaction e) ∨
    ∃ u rest i, s.takeTransaction = some (u, rest) ∧ decodeTransaction u = .ok i ∧
      exec i { s with input := rest } = .refused r := by
  cases htake : s.takeTransaction with
  | none => simp [step_of_take_none htake] at h
  | some taken =>
    obtain ⟨u, rest⟩ := taken
    cases hdec : decodeTransaction u with
    | error e =>
      simp only [step, htake, hdec, Host.Outcome.refused.injEq] at h
      exact .inl ⟨e, h.symm⟩
    | ok i => exact .inr ⟨u, rest, i, rfl, hdec, step_of_take htake hdec ▸ h⟩

/-! ### What is never refused -/

/-- A sequence of two parts that are not refused is not refused. -/
theorem andThen_ne_refused {o : Out} {f : State → Out} {r : Refusal} (ho : o ≠ .refused r)
    (hf : ∀ s, f s ≠ .refused r) : andThen o f ≠ .refused r := by
  cases o with
  | next s => exact hf s
  | fault _ => exact nofun
  | refused _ => exact ho

/-- R133, R105: SEND_NEW completes or faults. -/
theorem sendNew_ne_refused (p : Bytes) (s : State) (r : Refusal) : sendNew p s ≠ .refused r := by
  unfold sendNew
  split <;> exact nofun

/-- R37: an advance of `next_seq` completes or faults. -/
theorem advanceNext_ne_refused (s : State) (r : Refusal) : s.advanceNext ≠ .refused r := by
  unfold State.advanceNext
  split <;> exact nofun

/-- R134: so does every iteration of DRAIN's loop. -/
theorem drainQueue_ne_refused (q : List Bytes) (s : State) (r : Refusal) : drainQueue q s ≠ .refused r := by
  induction q generalizing s with
  | nil => exact nofun
  | cons p rest ih =>
    unfold drainQueue
    split
    · exact andThen_ne_refused (sendNew_ne_refused _ _ _) fun u =>
        andThen_ne_refused (advanceNext_ne_refused u r) ih
    · exact nofun

/-- R135, R194: ON_ACK pushes nothing onto the queue. -/
theorem onAck_ne_refused (n : I32) (s : State) (r : Refusal) : onAck n s ≠ .refused r := by
  unfold onAck
  dsimp only
  split
  · exact andThen_ne_refused (drainQueue_ne_refused _ _ _) nofun
  · exact nofun

theorem onTimeout_ne_refused (s : State) (r : Refusal) : onTimeout s ≠ .refused r := by
  unfold onTimeout
  split <;> exact nofun

theorem onData_ne_refused (p : Packet) (s : State) (r : Refusal) : onData p s ≠ .refused r := by
  unfold onData acceptData
  dsimp only
  split
  · split <;> exact nofun
  · exact nofun

/-- R194: every received byte string is absorbed, whatever it is. -/
theorem receive_ne_refused (raw : Bytes) (s : State) (r : Refusal) : receive raw s ≠ .refused r := by
  unfold receive
  split
  · exact nofun
  · split
    · exact onAck_ne_refused _ _ _
    · exact onData_ne_refused _ _ _

/-! ### The hold on a full queue -/

/-- R57, R132: SUBMIT is refused exactly where it would push onto a full queue. -/
theorem submit_queueFull_iff {p : Bytes} {s : State} :
    submit p s = .refused .queueFull ↔ s.slotFree = false ∧ s.queueFull = true := by
  unfold submit
  cases hfree : s.slotFree with
  | true =>
    have hsend := andThen_ne_refused (sendNew_ne_refused p s .queueFull) fun s1 =>
      andThen_ne_refused (advanceNext_ne_refused (startIfOnly s1) .queueFull)
        (f := fun s2 => .next (s2.setStatus .ok)) nofun
    simpa using hsend
  | false => cases hfull : s.queueFull <;> simp [State.pushPending, hfull]

/-- R57, R195: the APP_SENDs that are held are exactly those that have no step by themselves. -/
theorem holds_appSend_iff {p : Bytes} {s : State} :
    s.holds (.command (0x01#8 :: p)) = true ↔ execAppSend p s = .refused .queueFull := by
  have hholds : s.holds (.command (0x01#8 :: p)) = true ↔
      p.length ≤ s.params.maxPayload.val ∧ s.slotFree = false ∧ s.queueFull = true := by
    simp [State.holds, appSendCode, and_assoc]
  rw [hholds, ← submit_queueFull_iff (p := p)]
  by_cases hfits : p.length ≤ s.params.maxPayload.val <;> simp [execAppSend, hfits]

/-- R57: only APP_SENDs are held. -/
theorem holds_eq_false_of_not_appSend {u : Transaction} {s : State} (hu : isAppSend u = false) :
    s.holds u = false := by
  match u with
  | .reset _ => rfl
  | .command [] => rfl
  | .command (c :: p) =>
    have hcode : (c == appSendCode) = false := hu
    simp [State.holds, hcode]

/-- R57: behind a held transaction the first that is no APP_SEND is taken. -/
theorem takeTransaction_of_holds {s : State} {u : Transaction} {rest : List Transaction}
    (hinput : s.input = u :: rest) (hheld : s.holds u = true) :
    s.takeTransaction = (takeOther rest).map fun taken => (taken.1, u :: taken.2) := by
  simp only [State.takeTransaction, hinput, hheld, if_true]
  cases takeOther rest <;> rfl

/-- R57: what is taken is not held. -/
theorem holds_of_take {s : State} {u : Transaction} {rest : List Transaction}
    (htake : s.takeTransaction = some (u, rest)) : s.holds u = false := by
  cases hinput : s.input with
  | nil => simp [State.takeTransaction, hinput] at htake
  | cons first others =>
    cases hheld : s.holds first with
    | false =>
      obtain ⟨rfl, -⟩ : first = u ∧ others = rest := by
        simpa [State.takeTransaction, hinput, hheld] using htake
      exact hheld
    | true =>
      rw [takeTransaction_of_holds hinput hheld, Option.map_eq_some_iff] at htake
      obtain ⟨taken, hother, heq⟩ := htake
      obtain rfl : taken.1 = u := congrArg Prod.fst heq
      exact holds_eq_false_of_not_appSend (takeOther_not hother)

/-- Settles O32: such an APP_SEND is held, and the APP_SENDs behind it are passed over with it. -/
theorem fullQueueHoldsAppSend : Obligations.FullQueueHoldsAppSend := by
  intro s p before hslot hfull hfits hbefore
  have hrefused : execAppSend p s = .refused .queueFull := by
    rw [execAppSend, if_pos hfits]
    exact submit_queueFull_iff.2 ⟨hslot, hfull⟩
  have hheld := holds_appSend_iff.2 hrefused
  refine ⟨hrefused, ?_, ?_⟩
  · intro hinput
    apply step_of_take_none
    rw [takeTransaction_of_holds hinput hheld, takeOther_none before hbefore]
    rfl
  · intro u after i hu hdec hinput
    apply step_of_take _ hdec
    rw [takeTransaction_of_holds hinput hheld, takeOther_of_appSends before u after hbefore hu]
    rfl

/-- Settles O33: the APP_SENDs that would be refused for a full queue are held, so none of them is taken, and
no other event pushes onto the queue. -/
theorem stepNeverRefusesForFullQueue : Obligations.StepNeverRefusesForFullQueue := by
  intro s h
  rcases step_refused h with ⟨e, he⟩ | ⟨u, rest, i, htake, hdec, hexec⟩
  · cases he
  cases u with
  | reset params =>
    obtain rfl : Instr.reset params = i := Except.ok.inj hdec
    simp only [exec, execReset] at hexec
    split at hexec <;> cases hexec
  | command b =>
    rcases decodeCommand_cases hdec with ⟨p, rfl, rfl⟩ | ⟨raw, -, rfl⟩ | ⟨-, rfl⟩ | ⟨c, op, -, -, -, -, rfl⟩
    · have hheld : s.holds (.command (0x01#8 :: p)) = true :=
        holds_appSend_iff (s := { s with input := rest }).2 hexec
      simp [holds_of_take htake] at hheld
    · exact receive_ne_refused _ _ _ hexec
    · exact onTimeout_ne_refused _ _ hexec
    · cases hexec

/-! ### Stored frames -/

/-- R56, R59: from `s` to `t` the frame store gained entries only under numbers `s` had not assigned yet, each a
frame transmitted on the way. -/
structure StoresOnlySent (s t : State) : Prop where
  nextSeq : s.nextSeq.toInt ≤ t.nextSeq.toInt
  entries : ∃ new, t.actions = s.actions ++ new ∧ ∀ e ∈ t.inFlight,
    e ∈ s.inFlight ∨ (s.nextSeq.toInt ≤ e.1.toInt ∧ e.2 ∈ transmitted new)

theorem StoresOnlySent.trans {s t u : State} (h : StoresOnlySent s t) (h' : StoresOnlySent t u) :
    StoresOnlySent s u := by
  obtain ⟨hnext, new, hactions, hentries⟩ := h
  obtain ⟨hnext', new', hactions', hentries'⟩ := h'
  refine ⟨hnext.trans hnext', new ++ new', by rw [hactions', hactions, List.append_assoc], fun e he => ?_⟩
  rw [transmitted_append, List.mem_append]
  rcases hentries' e he with hold | ⟨hlow, hsent⟩
  · exact (hentries e hold).imp_right fun ⟨hlow, hsent⟩ => ⟨hlow, .inl hsent⟩
  · exact .inr ⟨hnext.trans hlow, .inr hsent⟩

/-- R63: what only removes entries and emits actions stores nothing. -/
theorem StoresOnlySent.of_subset {s t : State} (hnext : t.nextSeq = s.nextSeq) (hstore : t.inFlight ⊆ s.inFlight)
    (hactions : s.actions <+: t.actions) : StoresOnlySent s t := by
  obtain ⟨new, hnew⟩ := hactions
  exact ⟨by rw [hnext], new, hnew.symm, fun e he => .inl (hstore he)⟩

theorem StoresOnlySent.refl (s : State) : StoresOnlySent s s := .of_subset rfl (List.Subset.refl _) (List.prefix_refl _)

theorem QueuesOnly.storesOnlySent {s t : State} (h : QueuesOnly s t) (hactions : s.actions <+: t.actions) :
    StoresOnlySent s t :=
  .of_subset h.nextSeq (h.inFlight ▸ List.Subset.refl _) hactions

/-- R133: the frame stored is the frame transmitted. -/
theorem Sends.storesOnlySent {p : Bytes} {s t : State} {new : List Action} (h : Sends p s t)
    (hactions : t.actions = s.actions ++ .tx (dataFrame s.nextSeq p) :: new) : StoresOnlySent s t := by
  refine ⟨by rw [h.toInt_nextSeq]; omega, _, hactions, fun e he => ?_⟩
  rw [h.inFlight] at he
  rcases Memory.mem_insert he with rfl | hold
  · exact .inr ⟨le_rfl, by simp [transmitted]⟩
  · exact .inl hold

theorem submit_storesOnlySent {p : Bytes} {s t : State} (h : submit p s = .next t) : StoresOnlySent s t := by
  rcases submit_next h with ⟨hfree, -, -, ht⟩ | ⟨hfull, -, rfl⟩
  · apply (submit_sends hfree h).storesOnlySent
    rw [ht, startIfOnly_eq, State.setStatus_actions, List.append_assoc]
    rfl
  · exact (submit_queuesOnly hfull h).storesOnlySent (List.prefix_refl _)

theorem drain_storesOnlySent {s t : State} (h : drain s = .next t) : StoresOnlySent s t :=
  (drain_induction (fun _ _ _ hu hsend => hu.trans (hsend.storesOnlySent rfl)) h (.refl s)).1

/-- R135, R59: an acknowledgment removes entries, and stores what DRAIN sends. -/
theorem onAck_storesOnlySent {n : I32} {s t : State} (h : onAck n s = .next t) : StoresOnlySent s t := by
  rcases onAck_next h with ⟨-, u, hu, rfl⟩ | ⟨hle, rfl⟩
  · have hbefore : StoresOnlySent s (beforeDrain n s) := by
      rw [beforeDrain_eq, List.append_assoc]
      exact .of_subset rfl (fun e he => Memory.mem_of_mem_unacked he) (List.prefix_append _ _)
    have hafter : StoresOnlySent u ((restartIfInFlight u).setStatus .ok) := by
      rw [restartIfInFlight_eq]
      exact .of_subset rfl (List.Subset.refl _) (List.prefix_append _ _)
    exact (hbefore.trans (drain_storesOnlySent hu)).trans hafter
  · refine (onAck_queuesOnly hle h).storesOnlySent ?_
    rw [ackedKeys_of_stale hle]
    exact List.prefix_refl _

/-- R139, R63: a timeout transmits stored frames and stores none. -/
theorem onTimeout_storesOnlySent {s t : State} (h : onTimeout s = .next t) : StoresOnlySent s t := by
  refine (onTimeout_queuesOnly h).storesOnlySent ?_
  rcases onTimeout_next h with ⟨-, rfl⟩ | ⟨-, rfl⟩
  · exact List.prefix_append _ _
  · rw [State.setStatus_actions, State.restartTimer_actions, List.append_assoc]
    exact List.prefix_append _ _

theorem onData_storesOnlySent {p : Packet} {s t : State} (h : onData p s = .next t) : StoresOnlySent s t := by
  refine (onData_queuesOnly h).storesOnlySent ?_
  rcases onData_next h with ⟨-, -, rfl⟩ | ⟨-, rfl⟩ <;> exact List.prefix_append _ _

theorem receive_storesOnlySent {raw : Bytes} {s t : State} (h : receive raw s = .next t) : StoresOnlySent s t := by
  rcases receive_next h with ⟨k, -, rfl⟩ | ⟨p, -, -, hack⟩ | ⟨p, -, -, hdata⟩
  · exact .of_subset rfl (List.Subset.refl _) (List.prefix_append _ _)
  · exact onAck_storesOnlySent hack
  · exact onData_storesOnlySent hdata

/-- R56, R59, R63: no step but construction stores a frame it does not transmit. -/
theorem step_storesOnlySent {s t : State} (hreset : ∀ p rest, s.takeTransaction ≠ some (.reset p, rest))
    (h : step s = .next t) : StoresOnlySent s t := by
  rcases step_next h with ⟨-, rfl⟩ | ⟨u, rest, htake, hrun⟩
  · exact .refl t
  suffices hsent : StoresOnlySent { s with input := rest } t from ⟨hsent.nextSeq, hsent.entries⟩
  rcases hrun with ⟨p, -, happ⟩ | ⟨raw, -, hrecv⟩ | ⟨-, htimeout⟩ | ⟨p, rfl, -, -⟩
  · exact submit_storesOnlySent (execAppSend_next happ).2
  · exact receive_storesOnlySent hrecv
  · exact onTimeout_storesOnlySent htimeout
  · exact absurd htake (hreset p rest)

/-- R56: under the invariant a number that is not assigned yet holds no frame. -/
theorem Inv.get?_of_unassigned {s : State} (hi : Inv s) {k : I32} (hk : s.nextSeq.toInt ≤ k.toInt) :
    Memory.get? s.inFlight k = none := by
  cases hget : Memory.get? s.inFlight k with
  | none => rfl
  | some f =>
    have hbelow := (hi.keysAssigned _ (Memory.mem_of_get? hget)).2
    dsimp only at hbelow
    omega

/-- Settles O46: an entry after the step is an old entry, whose key then reads the same bytes, or it was sent
under a number not assigned before, whose key then held nothing. -/
theorem storedFramesAreNeverModified : Obligations.StoredFramesAreNeverModified := by
  intro s t hi hreset h
  obtain ⟨-, new, hactions, hentries⟩ := step_storesOnlySent hreset h
  refine ⟨new, hactions, fun k f hget => ?_⟩
  rcases hentries _ (Memory.mem_of_get? hget) with hold | ⟨hunassigned, hsent⟩
  · exact .inl (Memory.get?_of_mem hi.storeOrdered hold)
  · exact .inr ⟨hi.get?_of_unassigned hunassigned, hsent⟩

end Sys2Proof.Machine
end

section
/-! Proofs for spec/30_encoding.md: the encoder and the decoder are inverse on every port, the flag byte
selects the frame kind, and the notation, the table words and the output codes are as assigned. -/

namespace Sys2Proof.Machine

/-! ### Well-formed terms that have an encoding -/

/-- R82: a reserved code is none of the three that have a meaning. -/
@[simp] theorem wellFormed_cmdReserved (c : Byte) (operand : Bytes) :
    (Instr.cmdReserved c operand).wellFormed = true ↔ c ≠ 0x01#8 ∧ c ≠ 0x02#8 ∧ c ≠ 0x03#8 :=
  decide_eq_true_iff

/-- R71, R78: the length field of a data frame counts its payload. -/
@[simp] theorem wellFormed_frameData (seq ack : I32) (sum : U16) (len : I32) (p : Bytes) :
    (Instr.frameData seq ack sum len p).wellFormed = true ↔ len.toInt = p.length :=
  decide_eq_true_iff

/-- R71, R77, R78: the length field of an acknowledgment frame counts its payload, and its flag byte is not zero. -/
@[simp] theorem wellFormed_frameAck (seq ack : I32) (sum : U16) (flag : Byte) (len : I32) (p : Bytes) :
    (Instr.frameAck seq ack sum flag len p).wellFormed = true ↔ flag ≠ 0x00#8 ∧ len.toInt = p.length := by
  simp [Instr.wellFormed, lengthFieldAgrees]

/-! ### What each port's decoder accepts -/

/-- R70, R75: the channel decoder reads a frame with flag byte 0x00 as a data frame. -/
theorem decodeChannel_frameData {seq ack : I32} {sum : U16} {len : I32} {p : Bytes}
    (hlen : len.toInt = p.length) :
    decodeChannel (headerBytes seq ack sum 0x00#8 len ++ p) = .ok (.frameData seq ack sum len p) := by
  rw [decodeChannel_header, if_pos hlen, if_pos rfl]

/-- R70, R77: the channel decoder reads a frame with any other flag byte as an acknowledgment frame. -/
theorem decodeChannel_frameAck {seq ack : I32} {sum : U16} {flag : Byte} {len : I32} {p : Bytes}
    (hflag : flag ≠ 0x00#8) (hlen : len.toInt = p.length) :
    decodeChannel (headerBytes seq ack sum flag len ++ p) = .ok (.frameAck seq ack sum flag len p) := by
  rw [decodeChannel_header, if_pos hlen, if_neg hflag]

/-- R81: a string shorter than a header is no frame. -/
theorem decodeChannel_short {b : Bytes} (h : b.length < 15) : decodeChannel b = .error .truncatedFrame :=
  if_pos h

/-- R70, R77, R81: everything the channel decoder accepts. -/
theorem decodeChannel_cases {b : Bytes} {i : Instr} (h : decodeChannel b = .ok i) :
    ∃ (seq ack : I32) (sum : U16) (flag : Byte) (len : I32) (p : Bytes),
      b = headerBytes seq ack sum flag len ++ p ∧ len.toInt = p.length ∧
        ((flag = 0x00#8 ∧ i = .frameData seq ack sum len p) ∨
          (flag ≠ 0x00#8 ∧ i = .frameAck seq ack sum flag len p)) := by
  by_cases hshort : b.length < 15
  · rw [decodeChannel_short hshort] at h
    cases h
  obtain ⟨seq, ack, sum, flag, len, p, rfl⟩ := exists_header_of_length (Nat.le_of_not_lt hshort)
  refine ⟨seq, ack, sum, flag, len, p, rfl, ?_⟩
  by_cases hlen : len.toInt = p.length
  · refine ⟨hlen, ?_⟩
    by_cases hflag : flag = 0x00#8
    · subst hflag
      rw [decodeChannel_frameData hlen] at h
      exact .inl ⟨rfl, (Except.ok.inj h).symm⟩
    · rw [decodeChannel_frameAck hflag hlen] at h
      exact .inr ⟨hflag, (Except.ok.inj h).symm⟩
  · rw [decodeChannel_header, if_neg hlen] at h
    cases h

/-- R83: everything the decoder of the action output accepts. -/
theorem decodeAction_cases {b : Bytes} {i : Instr} (h : decodeAction b = .ok i) :
    (∃ f, b = txCode :: f ∧ i = .tx f) ∨ (∃ p, b = deliverCode :: p ∧ i = .deliver p) ∨
      (b = [timerStartCode] ∧ i = .timerStart) ∨ (b = [timerStopCode] ∧ i = .timerStop) := by
  unfold decodeAction at h
  split at h
  · cases h
  rename_i c operand
  split_ifs at h with htx hdeliver hstart hstop
  · exact .inl ⟨operand, by rw [htx], (Except.ok.inj h).symm⟩
  · exact .inr (.inl ⟨operand, by rw [hdeliver], (Except.ok.inj h).symm⟩)
  · cases operand with
    | nil => exact .inr (.inr (.inl ⟨by rw [hstart], (Except.ok.inj h).symm⟩))
    | cons x xs => cases h
  · cases operand with
    | nil => exact .inr (.inr (.inr ⟨by rw [hstop], (Except.ok.inj h).symm⟩))
    | cons x xs => cases h

/-! ### The round trips -/

/-- Settles O38: the encoder writes a code and an operand, or a header and a payload; the decoder tells a
reserved code from the others, and a frame's kind and extent, by what well-formedness says of them. -/
theorem decodeInvertsEncode : Obligations.DecodeInvertsEncode := by
  intro i port b hwf henc
  cases i <;> cases henc
  case cmdReserved c operand =>
    obtain ⟨hsend, hrecv, hfire⟩ := (wellFormed_cmdReserved c operand).1 hwf
    exact decodeCommand_reserved c operand hsend hrecv hfire
  case frameData seq ack sum len p =>
    exact decodeChannel_frameData ((wellFormed_frameData seq ack sum len p).1 hwf)
  case frameAck seq ack sum flag len p =>
    obtain ⟨hflag, hlen⟩ := (wellFormed_frameAck seq ack sum flag len p).1 hwf
    exact decodeChannel_frameAck hflag hlen
  case appSend | netRecv | timerFire | tx | deliver | timerStart | timerStop => rfl

/-- Settles O39: port by port, each form the decoder accepts is the one the encoder writes. -/
theorem encodeInvertsDecode : Obligations.EncodeInvertsDecode := by
  intro i port b hdec
  cases port with
  | command =>
    rcases decodeCommand_cases hdec with
      ⟨p, rfl, rfl⟩ | ⟨raw, rfl, rfl⟩ | ⟨rfl, rfl⟩ | ⟨c, operand, rfl, hsend, hrecv, hfire, rfl⟩
    · exact ⟨rfl, rfl⟩
    · exact ⟨rfl, rfl⟩
    · exact ⟨rfl, rfl⟩
    · exact ⟨(wellFormed_cmdReserved c operand).2 ⟨hsend, hrecv, hfire⟩, rfl⟩
  | channel =>
    obtain ⟨seq, ack, sum, flag, len, p, rfl, hlen, hkind⟩ := decodeChannel_cases hdec
    rcases hkind with ⟨rfl, rfl⟩ | ⟨hflag, rfl⟩
    · exact ⟨(wellFormed_frameData seq ack sum len p).2 hlen, rfl⟩
    · exact ⟨(wellFormed_frameAck seq ack sum flag len p).2 ⟨hflag, hlen⟩, rfl⟩
  | action =>
    rcases decodeAction_cases hdec with ⟨f, rfl, rfl⟩ | ⟨p, rfl, rfl⟩ | ⟨rfl, rfl⟩ | ⟨rfl, rfl⟩ <;>
      exact ⟨rfl, rfl⟩

/-- Settles O37: the six words are short enough to decode by evaluation. -/
theorem writtenOutWordsDecode : Obligations.WrittenOutWordsDecode := by
  unfold Obligations.WrittenOutWordsDecode
  decide

/-! ### The flag byte of a received frame -/

/-- R107: DECODE reads a frame that verifies and whose length field counts its payload, field by field. -/
theorem decodeFrame_of_verify {seq ack : I32} {sum : U16} {flag : Byte} {len : I32} {p : Bytes}
    (hlen : len.toInt = p.length) (hverify : verify (headerBytes seq ack sum flag len ++ p) = true) :
    decodeFrame (headerBytes seq ack sum flag len ++ p) =
      .ok { seq := seq, ack := ack, checksum := sum, ackFlag := flagOf flag,
            payloadLength := len, payload := p } := by
  rw [decodeFrame_header, if_neg (not_not_intro ((verify_eq_true _).1 hverify)), if_pos hlen]

/-- R77: every flag byte but 0x00 is read as true. -/
theorem flagOf_of_ne_zero {flag : Byte} (h : flag ≠ 0x00#8) : flagOf flag = true :=
  bne_iff_ne.2 h

/-- Settles O28: DECODE reads each frame field by field, so it is received as data where its flag byte is 0x00
and as an acknowledgment otherwise. -/
theorem flagByteSelectsFrameKind : Obligations.FlagByteSelectsFrameKind := by
  intro seq ack sum flag len p s hwf
  have hlen : len.toInt = p.length := (wellFormed_frameData seq ack sum len p).1 hwf
  constructor
  · intro hverify
    exact exec_of_receivesData (.inr ⟨_, rfl, decodeFrame_of_verify hlen hverify, rfl⟩) s
  · intro hflag hverify
    exact exec_of_receivesAck
      (.inr ⟨_, _, rfl, decodeFrame_of_verify hlen hverify, flagOf_of_ne_zero hflag, rfl⟩) s

/-! ### The notation -/

/-- R80, R105: DATA of an admitted payload returns the frame. -/
theorem execData_of_le {n : I32} {p : Bytes} {s : State} (hp : p.length ≤ s.params.maxPayload.val) :
    execData n p s = .next (s.setResult (.bytes (encodeFrame n 0 false p))) := by
  simp only [execData, encodeInDomain_of_le hp]

/-- R80: the rule's example of an acknowledgment. -/
theorem encodeFrame_ackExample : encodeFrame 0 1 true [] =
    [0x00#8, 0x00#8, 0x00#8, 0x00#8, 0x00#8, 0x00#8, 0x00#8, 0x01#8, 0xFE#8, 0xFE#8, 0x01#8,
      0x00#8, 0x00#8, 0x00#8, 0x00#8] := by decide

/-- R80: the rule's example of a data frame. -/
theorem encodeFrame_dataExample : encodeFrame 1 0 false [0x61#8] =
    [0x00#8, 0x00#8, 0x00#8, 0x01#8, 0x00#8, 0x00#8, 0x00#8, 0x00#8, 0xFE#8, 0x9D#8, 0x00#8,
      0x00#8, 0x00#8, 0x00#8, 0x01#8, 0x61#8] := by decide

/-- Settles O10: DATA is ENCODE inside its domain, and ACK has no payload that could leave it. -/
theorem notationExpandsToEncodedFrames : Obligations.NotationExpandsToEncodedFrames :=
  ⟨fun _ _ _ hp => execData_of_le hp, fun _ _ => rfl, encodeFrame_ackExample, encodeFrame_dataExample⟩

/-! ### Status codes -/

/-- R83, R191: the code of a status reads back as that status. -/
@[simp] theorem Status.ofCode_code (st : Status) : Status.ofCode st.code = some st := by
  cases st <;> rfl

/-- R83, R191: a status is read back from its own code and from no other byte. -/
theorem Status.ofCode_eq_some_iff (c : Byte) (st : Status) : Status.ofCode c = some st ↔ st.code = c := by
  constructor
  · intro h
    unfold Status.ofCode at h
    split_ifs at h with hc hc hc hc hc <;> cases h <;> exact hc.symm
  · rintro rfl
    exact Status.ofCode_code st

/-- Settles O49: the codes are R83's by definition, and they are pairwise different. -/
theorem outputCodesAsAssigned : Obligations.OutputCodesAsAssigned :=
  ⟨fun _ => rfl, fun _ => rfl, fun _ => rfl, rfl, rfl, rfl, rfl, rfl, rfl, Status.ofCode_eq_some_iff⟩

end Sys2Proof.Machine
end

section
/-! Proofs for spec/40_codec.md: the one's-complement sum as a number, what VERIFY accepts, and that DECODE
reads back what ENCODE builds. -/

namespace Sys2Proof.Machine

/-! ### The one's-complement sum as a number -/

/-- R103: a total of words reduced modulo 65535 into 1 .. 65535, and 0 only for a total of 0. -/
def reducedTotal (total : Nat) : Nat := if total = 0 then 0 else (total - 1) % 65535 + 1

/-- R103: a reduced total is 0xFFFF exactly where the total is a positive multiple of 65535. -/
theorem reducedTotal_eq_allOnes_iff (total : Nat) :
    reducedTotal total = 65535 ↔ 0 < total ∧ 65535 ∣ total := by
  unfold reducedTotal
  split <;> omega

/-- R101, R103: adding a word to a reduced total and folding the carry reduces the new total. -/
theorem addFold_reducedTotal {s : U16} {total : Nat} (hs : s.toNat = reducedTotal total) (w : U16) :
    (addFold s w).toNat = reducedTotal (total + w.toNat) := by
  have hw := w.isLt
  rw [addFold_toNat, hs]
  unfold reducedTotal
  split <;> split <;> omega

/-- R103: the folds over a list of words leave their reduced total. -/
theorem foldl_addFold_toNat (l : List U16) {s : U16} {total : Nat} (hs : s.toNat = reducedTotal total) :
    (l.foldl addFold s).toNat = reducedTotal (total + (l.map BitVec.toNat).sum) := by
  induction l generalizing s total with
  | nil => exact hs
  | cons w l ih =>
    rw [List.foldl_cons, ih (addFold_reducedTotal hs w), List.map_cons, List.sum_cons, Nat.add_assoc]

/-- R100, R103: the words of the padded string sum to the string's total. -/
theorem words_padded_sum (b : Bytes) : ((words (padded b)).map BitVec.toNat).sum = wordTotal b := by
  unfold padded
  split
  · next heven => exact words_sum b heven
  · next hodd =>
    have hpad : (b ++ [0x00#8]).length % 2 = 0 := by simp only [List.length_append, List.length_singleton]; omega
    rw [words_sum _ hpad, wordTotal_pad b (by omega)]

/-- R103: OCSUM is the reduced total of the words. -/
theorem ocsum_toNat (b : Bytes) : (ocsum b).toNat = reducedTotal (wordTotal b) := by
  have hfold := foldl_addFold_toNat (words (padded b)) (s := 0) (total := 0) rfl
  rwa [words_padded_sum, Nat.zero_add] at hfold

/-- Settles O1: each fold reduces the running total. -/
theorem ocsumIsSumModulo65535 : Obligations.OcsumIsSumModulo65535 :=
  fun b _ => ⟨ocsum b, rfl, ocsum_toNat b⟩

/-- R102: the rule's worked example. -/
theorem checksum_example : checksum [0x01#8, 0x02#8, 0x03#8] = 0xFBFD#16 := by decide

/-- Settles O2: the complement of a 16-bit word is 65535 minus it. -/
theorem checksumIsComplementOfOcsum : Obligations.ChecksumIsComplementOfOcsum :=
  ⟨fun b _ => ⟨checksum b, rfl, checksum_toNat b⟩, by decide, by decide, by decide, by decide, checksum_example⟩

/-! ### What VERIFY accepts -/

/-- R106: the recomputed checksum is zero exactly where the folded sum is all ones. -/
theorem checksum_eq_zero_iff (b : Bytes) : checksum b = 0x0000#16 ↔ ocsum b = 0xFFFF#16 := by
  rw [← BitVec.toNat_inj, ← BitVec.toNat_inj, checksum_toNat]
  have hlt := (ocsum b).isLt
  simp only [BitVec.toNat_ofNat]
  omega

/-- R103(b): OCSUM is all ones exactly where the total is a positive multiple of 65535. -/
theorem ocsum_eq_allOnes_iff (b : Bytes) : ocsum b = 0xFFFF#16 ↔ 0 < wordTotal b ∧ 65535 ∣ wordTotal b := by
  rw [← BitVec.toNat_inj, ocsum_toNat]
  exact reducedTotal_eq_allOnes_iff _

/-- R106: VERIFY accepts exactly the all-ones sum. -/
theorem verify_iff_ocsum (b : Bytes) : verify b = true ↔ ocsum b = 0xFFFF#16 :=
  (verify_eq_true b).trans (checksum_eq_zero_iff b)

/-- R103(b), R106: VERIFY accepts exactly the positive multiples of 65535. -/
theorem verify_iff_wordTotal (b : Bytes) : verify b = true ↔ 0 < wordTotal b ∧ 65535 ∣ wordTotal b :=
  (verify_iff_ocsum b).trans (ocsum_eq_allOnes_iff b)

/-- R103(a): zero bytes total 0. -/
theorem wordTotal_of_zeros : ∀ {b : Bytes}, (∀ x ∈ b, x = 0x00#8) → wordTotal b = 0
  | [], _ => rfl
  | [hi], h => by simp [wordTotal, h hi]
  | hi :: lo :: rest, h => by
    have hrest : wordTotal rest = 0 := wordTotal_of_zeros fun x hx => h x (by simp [hx])
    simp [wordTotal, hrest, h hi, h lo]

/-- R103(a): a total of 0 has the sum 0x0000. -/
theorem ocsum_of_wordTotal_zero {b : Bytes} (h : wordTotal b = 0) : ocsum b = 0x0000#16 :=
  BitVec.eq_of_toNat_eq (by rw [ocsum_toNat, h]; rfl)

/-- Settles O3: the recomputed checksum complements the folded sum, which is 0x0000 for zero bytes. -/
theorem verifyAcceptsSumAllOnes : Obligations.VerifyAcceptsSumAllOnes := by
  refine ⟨fun b s => ⟨verify b, rfl, verify_eq_true b, verify_iff_ocsum b⟩, fun b hzeros => ?_⟩
  have hsum : ocsum b = 0x0000#16 := ocsum_of_wordTotal_zero (wordTotal_of_zeros hzeros)
  have hchecksum : checksum b = 0xFFFF#16 := by rw [checksum, hsum]; rfl
  exact ⟨hsum, hchecksum, by rw [verify, hchecksum]; rfl⟩

/-! ### ENCODE and its domain -/

/-- Settles O4: the zero-checksum frame is the model's `frameWith` of checksum 0. -/
theorem encodeBuildsChecksummedFrame : Obligations.EncodeBuildsChecksummedFrame := by
  intro seq ack f p s hp fb len z
  have hz : frameWith seq ack 0x0000#16 f p = z := rfl
  have hencode : exec (.encode seq ack f p) s = .next (s.setResult (.bytes (encodeFrame seq ack f p))) := by
    simp only [exec, execEncode, encodeInDomain_of_le hp]
  rw [hencode, encodeFrame, hz]
  rfl

/-- Settles O5: outside ENCODE's domain there is no frame, and APP_SEND tests the same bound. -/
theorem overlongPayloadFaults : Obligations.OverlongPayloadFaults := by
  intro seq ack f p s hp
  refine ⟨?_, ?_, ?_, ?_⟩
  · simp only [exec, execEncode, encodeInDomain_of_gt hp]
  · simp only [exec, execData, encodeInDomain_of_gt hp]
  · simp only [exec, execSendNew, sendNew, encodeInDomain_of_gt hp]
  · exact if_neg (Nat.not_le.2 hp)

/-! ### DECODE -/

/-- R77: the flag is whether the flag byte is other than 0x00. -/
theorem flagOf_eq_decide (flag : Byte) : flagOf flag = decide (flag ≠ 0x00#8) :=
  Bool.eq_iff_iff.2 (bne_iff_ne.trans decide_eq_true_iff.symm)

/-- R107: DECODE of a string it reads returns the packet. -/
theorem exec_decode_of_ok {b : Bytes} {p : Packet} (h : decodeFrame b = .ok p) (s : State) :
    exec (.decode b) s = .next { s with result := .packet p } := by
  simp only [exec, execDecode, h, State.setResult]

/-- R107: DECODE of a string it rejects returns the kind. -/
theorem exec_decode_of_error {b : Bytes} {k : CorruptionKind} (h : decodeFrame b = .error k) (s : State) :
    exec (.decode b) s = .next { s with result := .corruption k } := by
  simp only [exec, execDecode, h, State.setResult]

/-- R81: a string shorter than a header is TRUNCATED. -/
theorem decodeFrame_of_short {b : Bytes} (h : b.length < 15) : decodeFrame b = .error .truncated :=
  if_pos h

/-- R107, R198: from a header's length on, a string that does not verify is CHECKSUM. -/
theorem decodeFrame_of_checksum_ne {b : Bytes} (hlen : 15 ≤ b.length) (hsum : checksum b ≠ 0x0000#16) :
    decodeFrame b = .error .checksum := by
  obtain ⟨seq, ack, c, fb, len, p, rfl⟩ := exists_header_of_length hlen
  rw [decodeFrame_header, if_pos hsum]

/-- Settles O6: fifteen bytes and a payload are a header and a payload, which DECODE reads by its fields. -/
theorem decodeReadsFieldsAfterOrderedChecks : Obligations.DecodeReadsFieldsAfterOrderedChecks := by
  refine ⟨fun b s hshort => exec_decode_of_error (decodeFrame_of_short hshort) s,
    fun b s hlen hsum => exec_decode_of_error (decodeFrame_of_checksum_ne hlen hsum) s, ?_⟩
  intro s3 s2 s1 s0 a3 a2 a1 a0 c1 c0 fl l3 l2 l1 l0 p s b len hsum
  have hb : b = headerBytes (s3 ++ s2 ++ s1 ++ s0) (a3 ++ a2 ++ a1 ++ a0) (c1 ++ c0) fl len ++ p :=
    bytes_eq_header s3 s2 s1 s0 a3 a2 a1 a0 c1 c0 fl l3 l2 l1 l0 p
  rw [hb] at hsum ⊢
  constructor
  · intro hlen
    exact exec_decode_of_error (by rw [decodeFrame_header, if_neg (not_not_intro hsum), if_neg hlen]) s
  · intro hlen
    rw [exec_decode_of_ok (decodeFrame_of_verify hlen ((verify_eq_true _).2 hsum)), flagOf_eq_decide]

/-! ### The round trip -/

/-- R104: the checksum field adds its value to the total of the zero-checksum frame. -/
theorem wordTotal_frameWith (seq ack : I32) (c : U16) (f : Bool) (p : Bytes) :
    wordTotal (frameWith seq ack c f p) = wordTotal (frameWith seq ack 0x0000#16 f p) + c.toNat :=
  wordTotal_header seq ack c (flagByte f) (BitVec.ofNat 32 p.length) p

/-- R106, R108: a frame with the checksum of its zero-checksum form verifies. -/
theorem verify_encodeFrame (seq ack : I32) (f : Bool) (p : Bytes) : verify (encodeFrame seq ack f p) = true := by
  rw [encodeFrame, verify_iff_wordTotal, wordTotal_frameWith, checksum_toNat, ocsum_toNat]
  generalize wordTotal (frameWith seq ack 0x0000#16 f p) = total
  unfold reducedTotal
  split <;> omega

/-- R108: a frame of an encodable payload that verifies decodes to its arguments. -/
theorem decodeFrame_frameWith {seq ack : I32} {c : U16} {f : Bool} {p : Bytes} (hp : p.length ≤ 2147483647)
    (hverify : verify (frameWith seq ack c f p) = true) :
    decodeFrame (frameWith seq ack c f p) =
      .ok { seq := seq, ack := ack, checksum := c, ackFlag := f,
            payloadLength := BitVec.ofNat 32 p.length, payload := p } := by
  have hdecode := decodeFrame_of_verify (toInt_ofNat_of_le hp) hverify
  rwa [flagOf_flagByte] at hdecode

/-- Settles O7: what ENCODE builds verifies, so DECODE reads every field back. -/
theorem decodeRecoversEncodedFields : Obligations.DecodeRecoversEncodedFields :=
  fun seq ack f p hp =>
    ⟨checksum (frameWith seq ack 0x0000#16 f p), rfl,
      decodeFrame_frameWith hp (verify_encodeFrame seq ack f p)⟩

/-- Settles O9: a body that is a positive multiple of 65535 stays one when the field 0xFFFF adds 65535. -/
theorem zeroChecksumHasSecondEncoding : Obligations.ZeroChecksumHasSecondEncoding := by
  intro seq ack f p hp hbody
  refine ⟨by rw [encodeFrame, (checksum_eq_zero_iff _).2 hbody], decodeFrame_frameWith hp ?_⟩
  obtain ⟨hpos, hdvd⟩ := (ocsum_eq_allOnes_iff _).1 hbody
  rw [verify_iff_wordTotal, wordTotal_frameWith]
  exact ⟨Nat.add_pos_left hpos _, (Nat.dvd_add_right hdvd).2 (dvd_refl 65535)⟩

/-! ### Detection of one changed byte -/

/-- R100: what a byte at this offset counts in its word: 256 for the high byte, 1 for the low one. -/
def byteWeight (i : Nat) : Nat := if i % 2 = 0 then 256 else 1

/-- R100: bytes two apart count the same. -/
theorem byteWeight_add_two (i : Nat) : byteWeight (i + 2) = byteWeight i := by
  rw [byteWeight, Nat.add_mod_right, byteWeight]

/-- R103: a byte written over another moves the total by their difference, weighted. -/
theorem wordTotal_set (x : Byte) : ∀ (b : Bytes) (i : Nat) (h : i < b.length),
    wordTotal (b.set i x) + byteWeight i * b[i].toNat = wordTotal b + byteWeight i * x.toNat
  | [hi], 0, _ => by simp [wordTotal, byteWeight]; omega
  | hi :: lo :: rest, 0, _ => by simp [wordTotal, byteWeight]; omega
  | hi :: lo :: rest, 1, _ => by simp [wordTotal, byteWeight]; omega
  | hi :: lo :: rest, i + 2, h => by
    have ih := wordTotal_set x rest i (by simpa using h)
    simp only [List.set_cons_succ, List.getElem_cons_succ, wordTotal, byteWeight_add_two]
    omega

/-- R109(a): two strings that verify do not differ in one byte alone: the totals would differ by a
multiple of 65535, and one byte moves its total by less. -/
theorem verify_set_eq_false {b : Bytes} {i : Nat} {x : Byte} (h : i < b.length) (hverify : verify b = true)
    (hne : x ≠ b[i]) : verify (b.set i x) = false := by
  rw [← Bool.not_eq_true, verify_iff_wordTotal]
  rintro ⟨-, hdvd'⟩
  obtain ⟨-, hdvd⟩ := (verify_iff_wordTotal b).1 hverify
  have htotal := wordTotal_set x b i h
  have hvalue : x.toNat ≠ b[i].toNat := fun he => hne (BitVec.eq_of_toNat_eq he)
  have hx := x.isLt
  have hb := b[i].isLt
  unfold byteWeight at htotal
  split at htotal <;> omega

/-- Settles O8: the changed string fails VERIFY, so NET_RECV of it is ON_CORRUPTION of CHECKSUM. -/
theorem oneByteChangeIsAlwaysDetected : Obligations.OneByteChangeIsAlwaysDetected := by
  intro b i x h s hverify hne
  have hfails : verify (b.set i x) = false := verify_set_eq_false h hverify hne
  refine ⟨hfails, fun hlen => ?_⟩
  have hsum : checksum (b.set i x) ≠ 0x0000#16 := fun h0 => by simp [verify, h0] at hfails
  exact exec_of_receivesCorruption
    (.inr ⟨_, rfl, decodeFrame_of_checksum_ne (by rwa [List.length_set]) hsum⟩) s

end Sys2Proof.Machine
end

section
/-! Proofs for spec/41_send_engine.md: the next state of each operation of the Send Engine, the net timer
effect of an acknowledgment, and that the Receive State is left alone. -/

namespace Sys2Proof.Machine

/-! ### SEND_NEW and SUBMIT -/

/-- Settles O11: the frame stored is the frame transmitted, and only its own key reads differently. -/
theorem sendNewTransmitsAndStoresFrame : Obligations.SendNewTransmitsAndStoresFrame :=
  fun p s hfits => ⟨Memory.insert s.inFlight s.nextSeq (dataFrame s.nextSeq p), sendNew_of_fits hfits,
    Memory.get?_insert_self _ _ _, fun _ hk => Memory.get?_insert_other _ _ hk⟩

@[simp] theorem startIfOnly_nextSeq (s : State) : (startIfOnly s).nextSeq = s.nextSeq := by
  rw [startIfOnly_eq]

/-- R37, R132, R134: advancing `next_seq`, below the last sequence number and at it. -/
theorem advanceNext_eq (s : State) : s.advanceNext =
    if s.nextSeq.toInt < 2147483647 then .next { s with nextSeq := s.nextSeq + 1 } else .fault .seqOverflow := by
  split
  case isTrue hlt => exact advanceNext_of_lt hlt
  case isFalse hge =>
    have hbound := BitVec.toInt_lt (x := s.nextSeq)
    exact advanceNext_of_max (by omega)

/-- R132: SUBMIT into a free slot; there is no number after the last one. -/
theorem submit_of_free {p : Bytes} {s : State} (hfree : s.slotFree = true)
    (hfits : p.length ≤ s.params.maxPayload.val) : submit p s =
      if s.nextSeq.toInt < 2147483647 then
        .next (({ startIfOnly { s with
            inFlight := Memory.insert s.inFlight s.nextSeq (dataFrame s.nextSeq p)
            actions := s.actions ++ [.tx (dataFrame s.nextSeq p)] } with
          nextSeq := s.nextSeq + 1 } : State).setStatus .ok)
      else .fault .seqOverflow := by
  rw [submit, if_pos hfree, sendNew_of_fits hfits, andThen_next, advanceNext_eq, startIfOnly_nextSeq]
  split <;> rfl

/-- R132, R57: SUBMIT with no free slot and room in the queue. -/
theorem submit_of_full_window {p : Bytes} {s : State} (hfree : s.slotFree = false)
    (hroom : s.queueFull = false) :
    submit p s = .next (({ s with pending := s.pending ++ [p] } : State).setStatus .ok) := by
  rw [submit, if_neg (by simp [hfree]), pushPending_of_room hroom, andThen_next]

/-- R171: APP_SEND of an admitted payload is SUBMIT. -/
theorem exec_eq_submit {i : Instr} {p : Bytes} (hi : i = .submit p ∨ i = .appSend p) {s : State}
    (hfits : p.length ≤ s.params.maxPayload.val) : exec i s = submit p s := by
  rcases hi with rfl | rfl
  · rfl
  · exact if_pos hfits

/-- R171: where APP_SEND answers a next state, its payload was admitted. -/
theorem submit_of_exec {i : Instr} {p : Bytes} (hi : i = .submit p ∨ i = .appSend p) {s t : State}
    (h : exec i s = .next t) : submit p s = .next t := by
  rcases hi with rfl | rfl
  · exact h
  · exact (execAppSend_next h).2

/-- Settles O12: the slot test and the last number tell the three cases apart. -/
theorem submitSendsOrQueues : Obligations.SubmitSendsOrQueues := by
  intro i p s hi hfits f m
  rw [exec_eq_submit hi hfits, ← slotFree_iff, ← queueFull_eq_false, Bool.not_eq_true]
  refine ⟨fun hfree hlt => ?_, fun hfree hmax => ?_, fun hfree hroom => submit_of_full_window hfree hroom⟩
  · rw [submit_of_free hfree hfits, if_pos hlt, startIfOnly_eq]
    rfl
  · rw [submit_of_free hfree hfits, if_neg (by omega)]

/-- Settles O13: under the invariant the new frame goes to the end of the store, so it is the only one exactly
where the store was empty. -/
theorem submitStartsTimerOnlyFromEmptyWindow : Obligations.SubmitStartsTimerOnlyFromEmptyWindow := by
  intro i p s t hi hinv hfree h
  rcases submit_next (submit_of_exec hi h) with ⟨-, -, -, rfl⟩ | ⟨hfull, -⟩
  · have hstore := Memory.insert_largest (dataFrame s.nextSeq p) fun e he => (hinv.keysAssigned e he).2
    have honly : (Memory.insert s.inFlight s.nextSeq (dataFrame s.nextSeq p)).length = 1 ↔ s.inFlight = [] := by
      simp [hstore]
    rw [startIfOnly_eq]
    refine ⟨⟨dataFrame s.nextSeq p, ?_⟩, fun k hk => Memory.get?_insert_other _ _ hk⟩
    simp only [State.setStatus_actions, honly]
  · simp [hfree] at hfull

/-! ### DRAIN -/

/-- R134: the state after the `k` oldest queued payloads are sent under consecutive numbers. -/
def State.sendOldest (k : Nat) (s : State) : State :=
  { s with
    pending := s.pending.drop k
    nextSeq := s.nextSeq + BitVec.ofNat 32 k
    inFlight := s.inFlight.insertAll (framesFrom s.nextSeq (s.pending.take k))
    actions := s.actions ++ (framesFrom s.nextSeq (s.pending.take k)).map fun e => .tx e.2 }

@[simp] theorem State.sendOldest_zero (s : State) : s.sendOldest 0 = s := by
  simp [State.sendOldest, framesFrom, Memory.insertAll]

/-- R134: the oldest payload first, then the others. -/
theorem State.sendOldest_succ {p : Bytes} {rest : List Bytes} {s : State} (hp : s.pending = p :: rest) (k : Nat) :
    s.sendOldest (k + 1) = (s.sendQueued p rest).sendOldest k := by
  have hnext : s.nextSeq + BitVec.ofNat 32 (k + 1) = s.nextSeq + 1 + BitVec.ofNat 32 k := by
    rw [BitVec.add_assoc, Nat.add_comm k, BitVec.ofNat_add]
    rfl
  simp [State.sendOldest, State.sendQueued, framesFrom, Memory.insertAll, hp, hnext]

/-- R134: nothing is left to drain where the queue is empty or no slot is free. -/
theorem drainable_eq_zero_iff (s : State) :
    s.drainable s.lastAcked = 0 ↔ s.pending = [] ∨ s.slotFree = false := by
  rw [← Bool.not_eq_true, slotFree_iff, ← List.length_eq_zero_iff, State.drainable]
  omega

/-- R134: sending the oldest payload takes one off the queue and one off the free slots. -/
theorem drainable_sendQueued {p : Bytes} {rest : List Bytes} {s : State} (hp : s.pending = p :: rest)
    (hlt : s.nextSeq.toInt < 2147483647) :
    (s.sendQueued p rest).drainable (s.sendQueued p rest).lastAcked = s.drainable s.lastAcked - 1 := by
  have hlength : s.pending.length = rest.length + 1 := by rw [hp, List.length_cons]
  simp only [State.drainable, State.sendQueued, toInt_add_one hlt, hlength]
  omega

/-- R134: DRAIN stops where nothing is left to drain. -/
theorem drain_of_drainable_zero {s : State} (h : s.drainable s.lastAcked = 0) : drain s = .next s := by
  unfold drain
  rcases (drainable_eq_zero_iff s).1 h with hnone | hfull
  · rw [hnone, drainQueue]
  · cases s.pending with
    | nil => rfl
    | cons p rest => rw [drainQueue, if_neg (by simp [hfull])]

/-- R134: one iteration of DRAIN's loop: it sends, then advances `next_seq`. -/
theorem drain_of_cons {p : Bytes} {rest : List Bytes} {s : State} (hp : s.pending = p :: rest)
    (hfree : s.slotFree = true) (hfits : p.length ≤ s.params.maxPayload.val) :
    drain s = if s.nextSeq.toInt < 2147483647 then drain (s.sendQueued p rest) else .fault .seqOverflow := by
  rw [drain, hp, drainQueue, if_pos hfree, sendNew_of_fits (s := { s with pending := rest }) hfits, andThen_next,
    advanceNext_eq]
  dsimp only
  split <;> rfl

/-- R134: DRAIN sends as many payloads as are queued and have a free slot, unless their numbers pass the last. -/
theorem drain_eq {k : Nat} {s : State} (hk : s.drainable s.lastAcked = k)
    (hfits : ∀ p ∈ s.pending.take k, p.length ≤ s.params.maxPayload.val) :
    drain s = if s.nextSeq.toInt + k ≤ 2147483647 then .next (s.sendOldest k) else .fault .seqOverflow := by
  induction k generalizing s with
  | zero =>
    have hbound := BitVec.toInt_lt (x := s.nextSeq)
    rw [drain_of_drainable_zero hk, if_pos (by omega), State.sendOldest_zero]
  | succ k ih =>
    have hsome : s.drainable s.lastAcked ≠ 0 := by omega
    rw [Ne, drainable_eq_zero_iff, not_or, Bool.not_eq_false] at hsome
    obtain ⟨hqueued, hfree⟩ := hsome
    obtain ⟨p, rest, hp⟩ := List.exists_cons_of_ne_nil hqueued
    rw [hp, List.take_succ_cons, List.forall_mem_cons] at hfits
    rw [drain_of_cons hp hfree hfits.1, State.sendOldest_succ hp]
    by_cases hlt : s.nextSeq.toInt < 2147483647
    · have hnext : (s.sendQueued p rest).nextSeq.toInt = s.nextSeq.toInt + 1 := toInt_add_one hlt
      rw [if_pos hlt, ih (by rw [drainable_sendQueued hp hlt, hk]; rfl) hfits.2, hnext]
      exact if_congr (by push_cast; omega) rfl rfl
    · rw [if_neg hlt, if_neg (by push_cast; omega)]

/-- Settles O14: DRAIN's loop runs once per payload that is queued and has a free slot. -/
theorem drainMovesQueuedIntoFreeSlots : Obligations.DrainMovesQueuedIntoFreeSlots := by
  intro s k sent hfits
  have hdrain : exec .drain s = _ := drain_eq rfl hfits
  exact ⟨fun hle => hdrain.trans (if_pos hle), fun hgt => hdrain.trans (if_neg (not_le.2 hgt))⟩

/-! ### ON_ACK -/

/-- R137: an acknowledgment that does not advance the window. -/
theorem onAck_of_stale {n : I32} {s : State} (h : n.toInt ≤ s.lastAcked.toInt) :
    onAck n s = .next (s.setStatus .staleAck) := by
  rw [onAck, ackedKeys_of_stale h]
  exact if_neg (not_lt.2 h)

/-- Settles O15: nothing is covered by a stale acknowledgment, in whatever form it arrives. -/
theorem staleAckChangesNothing : Obligations.StaleAckChangesNothing := by
  intro i n s hi hle
  rw [exec_of_receivesAck hi, onAck_of_stale hle]
  rfl

/-- R135: an advancing acknowledgment, before and after DRAIN. -/
theorem onAck_of_advance {n : I32} {s : State} (h : s.lastAcked.toInt < n.toInt) :
    onAck n s = andThen (drain (beforeDrain n s)) fun u => .next ((restartIfInFlight u).setStatus .ok) := by
  have hlast : (removeEach (ackedKeys s n) s).lastAcked = s.lastAcked := by rw [removeEach_eq]
  exact if_pos (hlast ▸ h)

/-- R135: the state after an advancing acknowledgment of `n`. -/
def State.acknowledge (n : I32) (s : State) : State :=
  (restartIfInFlight ((beforeDrain n s).sendOldest (s.drainable n))).setStatus .ok

/-- R135, R138: an advancing acknowledgment completes unless what DRAIN sends would pass the last number. -/
theorem onAck_eq {n : I32} {s : State} (hlt : s.lastAcked.toInt < n.toInt)
    (hfits : ∀ p ∈ s.pending.take (s.drainable n), p.length ≤ s.params.maxPayload.val) :
    onAck n s = if s.nextSeq.toInt + s.drainable n ≤ 2147483647 then .next (s.acknowledge n)
      else .fault .seqOverflow := by
  have hdrain : drain (beforeDrain n s) = if s.nextSeq.toInt + s.drainable n ≤ 2147483647
      then .next ((beforeDrain n s).sendOldest (s.drainable n)) else .fault .seqOverflow := by
    rw [beforeDrain_eq]
    exact drain_eq rfl hfits
  rw [onAck_of_advance hlt, hdrain]
  split <;> rfl

section
variable (n : I32) (s : State)

theorem State.acknowledge_lastAcked : (s.acknowledge n).lastAcked = n := by
  rw [State.acknowledge, restartIfInFlight_eq, beforeDrain_eq]; rfl

theorem State.acknowledge_nextSeq :
    (s.acknowledge n).nextSeq = s.nextSeq + BitVec.ofNat 32 (s.drainable n) := by
  rw [State.acknowledge, restartIfInFlight_eq, beforeDrain_eq]; rfl

theorem State.acknowledge_pending : (s.acknowledge n).pending = s.pending.drop (s.drainable n) := by
  rw [State.acknowledge, restartIfInFlight_eq, beforeDrain_eq]; rfl

theorem State.acknowledge_inFlight : (s.acknowledge n).inFlight =
    (s.inFlight.unacked s.lastAcked n).insertAll (framesFrom s.nextSeq (s.pending.take (s.drainable n))) := by
  rw [State.acknowledge, restartIfInFlight_eq, beforeDrain_eq]; rfl

/-- R135: one stop per removal, a restart if payloads are queued, what DRAIN sends, and a restart if frames
remain in flight. -/
theorem State.acknowledge_actions : (s.acknowledge n).actions = s.actions ++
    (List.replicate (s.inFlight.length - (s.inFlight.unacked s.lastAcked n).length) .timerStop ++
      (if s.pending = [] then [] else [.timerStop, .timerStart s.params.timeout]) ++
      ((framesFrom s.nextSeq (s.pending.take (s.drainable n))).map fun e => .tx e.2) ++
      (if (s.acknowledge n).inFlight = [] then [] else [.timerStop, .timerStart s.params.timeout])) := by
  rw [State.acknowledge_inFlight, State.acknowledge, restartIfInFlight_eq, beforeDrain_eq]
  simp only [← List.append_assoc]
  rfl

end

/-- Settles O16: the timer bit is what the restart after DRAIN leaves, else the restart before it, else the
removals. -/
theorem advancingAckRemovesDrainsAndRestarts : Obligations.AdvancingAckRemovesDrainsAndRestarts := by
  intro i n s hi hlt kept removed k sent m restart hfits hle
  have harmed : (if m = [] then if s.pending ≠ [] then true else if removed = 0 then s.timerArmed else false
      else true) = if m ≠ [] ∨ s.pending ≠ [] then true else if removed = 0 then s.timerArmed else false := by
    by_cases hm : m = [] <;> simp [hm]
  rw [exec_of_receivesAck hi, onAck_eq hlt hfits, if_pos hle, State.acknowledge, restartIfInFlight_eq,
    beforeDrain_eq, ← harmed]
  rfl

/-! ### The net timer effect of an acknowledgment -/

/-- R56: nothing is lost by insertions. -/
theorem Memory.insertAll_eq_nil_iff {m entries : Memory} : m.insertAll entries = [] ↔ m = [] ∧ entries = [] := by
  induction entries generalizing m with
  | nil => simp [Memory.insertAll]
  | cons e rest ih =>
    have hcons : m.insertAll (e :: rest) = (m.insert e.1 e.2).insertAll rest := rfl
    simp [hcons, ih, Memory.insert_ne_nil]

theorem framesFrom_eq_nil_iff {n : I32} {payloads : List Bytes} : framesFrom n payloads = [] ↔ payloads = [] := by
  cases payloads <;> simp [framesFrom]

/-- R32, R135(iii): an advancing acknowledgment opens a slot, so DRAIN sends a payload if one is queued. -/
theorem Inv.acknowledge_inFlight_ne_nil {n : I32} {s : State} (hi : Inv s) (hlt : s.lastAcked.toInt < n.toInt)
    (hqueued : s.pending ≠ []) : (s.acknowledge n).inFlight ≠ [] := by
  have hlength := List.length_pos_iff.2 hqueued
  have hopen : s.drainable n ≠ 0 := by
    have hbound := hi.windowBound
    unfold State.drainable
    omega
  rw [State.acknowledge_inFlight, Ne, Memory.insertAll_eq_nil_iff, framesFrom_eq_nil_iff, List.take_eq_nil_iff]
  simp [hopen, hqueued]

/-- R136: where nothing is in flight afterwards, every entry was removed, and nothing was queued or sent. -/
theorem Inv.acknowledge_actions_of_nil {n : I32} {s : State} (hi : Inv s) (hlt : s.lastAcked.toInt < n.toInt)
    (hnone : (s.acknowledge n).inFlight = []) :
    (s.acknowledge n).actions = s.actions ++ List.replicate s.inFlight.length .timerStop := by
  have hqueue : s.pending = [] := by
    by_contra hqueued
    exact hi.acknowledge_inFlight_ne_nil hlt hqueued hnone
  have hkept : s.inFlight.unacked s.lastAcked n = [] := by
    rw [State.acknowledge_inFlight, Memory.insertAll_eq_nil_iff] at hnone
    exact hnone.1
  rw [State.acknowledge_actions, if_pos hnone, if_pos hqueue, hkept, hqueue]
  simp [framesFrom]

/-- R136: where frames are in flight afterwards, the restart after DRAIN is the last timer action. -/
theorem State.acknowledge_restarts {n : I32} {s : State} (hsome : (s.acknowledge n).inFlight ≠ []) :
    ∃ new, (s.acknowledge n).actions = s.actions ++ new ∧ netTimer new = .restarted := by
  refine ⟨_, State.acknowledge_actions n s, ?_⟩
  rw [if_neg hsome, netTimer_append, netTimer_restart]
  rfl

/-- R135, R137: everything ON_ACK can do under the invariant where it answers a next state. -/
theorem Inv.onAck_cases {n : I32} {s t : State} (hi : Inv s) (h : onAck n s = .next t) :
    (s.lastAcked.toInt < n.toInt ∧ t = s.acknowledge n) ∨
      (n.toInt ≤ s.lastAcked.toInt ∧ t = s.setStatus .staleAck) := by
  rcases lt_or_ge s.lastAcked.toInt n.toInt with hlt | hle
  · rw [onAck_eq hlt fun p hp => hi.queuedFit p (List.mem_of_mem_take hp)] at h
    split at h
    · exact .inl ⟨hlt, (Host.Outcome.next.inj h).symm⟩
    · cases h
  · rw [onAck_of_stale hle] at h
    exact .inr ⟨hle, (Host.Outcome.next.inj h).symm⟩

/-- Settles O17: a stale acknowledgment emits nothing; an advancing one ends with a restart, or emits one stop
for each frame that was in flight. -/
theorem ackNetTimerEffectByCase : Obligations.AckNetTimerEffectByCase := by
  intro n s t hi h
  rcases hi.onAck_cases h with ⟨hlt, rfl⟩ | ⟨hle, rfl⟩
  · have hadvance : ¬ n.toInt ≤ s.lastAcked.toInt := not_le.2 hlt
    by_cases hnone : (s.acknowledge n).inFlight = []
    · refine ⟨_, hi.acknowledge_actions_of_nil hlt hnone, fun hle => absurd hle hadvance,
        fun _ hsome => absurd hnone hsome, fun _ _ hflight => ?_, fun _ _ hempty => by rw [hempty]; rfl,
        fun _ => hi.acknowledge_inFlight_ne_nil hlt⟩
      rw [netTimer_stops, if_neg (mt List.length_eq_zero_iff.1 hflight)]
    · obtain ⟨new, hactions, hnet⟩ := State.acknowledge_restarts hnone
      exact ⟨new, hactions, fun hle => absurd hle hadvance, fun _ _ => hnet, fun _ hnil => absurd hnil hnone,
        fun _ hnil => absurd hnil hnone, fun _ => hi.acknowledge_inFlight_ne_nil hlt⟩
  · have hstale : ¬ s.lastAcked.toInt < n.toInt := not_lt.2 hle
    exact ⟨[], (List.append_nil _).symm, fun _ => rfl, fun hlt => absurd hlt hstale, fun hlt => absurd hlt hstale,
      fun hlt => absurd hlt hstale, fun hlt => absurd hlt hstale⟩

/-! ### An acknowledgment that empties the window -/

/-- R31, R135, R138: with nothing queued, an acknowledgment of the last number assigned or of a later one removes
every entry and sends nothing. -/
theorem Occupancy.onAck_of_all_covered {n : I32} {s : State} (ho : Occupancy s) (hqueue : s.pending = [])
    (hlt : s.lastAcked.toInt < n.toInt) (hall : s.nextSeq.toInt ≤ n.toInt + 1) :
    onAck n s = .next (s.acknowledge n) ∧ (s.acknowledge n).pending = [] ∧ (s.acknowledge n).inFlight = [] ∧
      (s.acknowledge n).nextSeq = s.nextSeq := by
  have hnone : s.drainable n = 0 := by simp [State.drainable, hqueue]
  have hkept : s.inFlight.unacked s.lastAcked n = [] := by
    rw [Memory.unacked, List.filter_eq_nil_iff]
    intro e he
    have hkey := (ho.keysAreInterval e.1).1 ⟨e.2, he⟩
    have hcovered : e.1.toInt ≤ n.toInt := by omega
    simp [hkey.1, hcovered]
  have hbound := BitVec.toInt_lt (x := s.nextSeq)
  refine ⟨?_, by simp [State.acknowledge_pending, hqueue], ?_, by simp [State.acknowledge_nextSeq, hnone]⟩
  · rw [onAck_eq hlt (by simp [hqueue]), if_pos (by rw [hnone]; omega)]
  · rw [State.acknowledge_inFlight, hkept, hqueue, Memory.insertAll_eq_nil_iff, framesFrom_eq_nil_iff, List.take_nil]
    exact ⟨rfl, rfl⟩

/-- Settles O19: the window and the queue are empty, so under the invariant the timer is not armed. -/
theorem ackOfLastSentQuiesces : Obligations.AckOfLastSentQuiesces := by
  intro n s hi ho hqueue hlt hlast
  obtain ⟨hack, hpending, hflight, -⟩ := ho.onAck_of_all_covered hqueue hlt hlast.ge
  have harmed := (onAck_inv hi hack).timerIffInFlight
  rw [hflight] at harmed
  refine ⟨s.acknowledge n, hack, ?_, onAck_occupancy hi ho (by omega) hack, State.acknowledge_lastAcked n s⟩
  simp [State.quiescent, hpending, hflight, harmed]

/-- Settles O44: `last_acked` becomes the number acknowledged, which `next_seq` has not passed. -/
theorem ackOfUnsentBreaksOccupancy : Obligations.AckOfUnsentBreaksOccupancy := by
  intro n s t _ ho hunsent hqueue h
  obtain ⟨hack, -, hflight, hnext⟩ :=
    ho.onAck_of_all_covered hqueue (ho.ackedBelowNext.trans_le hunsent) (by omega)
  obtain rfl : s.acknowledge n = t := Host.Outcome.next.inj (hack.symm.trans h)
  refine ⟨hflight, State.acknowledge_lastAcked n s, hnext, fun hocc => ?_⟩
  have hbelow := hocc.ackedBelowNext
  rw [State.acknowledge_lastAcked, hnext] at hbelow
  omega

/-! ### ON_TIMEOUT -/

/-- R173: TIMER_FIRE is ON_TIMEOUT. -/
theorem exec_eq_onTimeout {i : Instr} (hi : i = .onTimeout ∨ i = .timerFire) (s : State) :
    exec i s = onTimeout s := by
  rcases hi with rfl | rfl <;> rfl

/-- Settles O20: the resends follow the restart in the order of the store, which rises in its canonical form. -/
theorem timeoutResendsWholeWindowInOrder : Obligations.TimeoutResendsWholeWindowInOrder := by
  intro i s hi
  rw [exec_eq_onTimeout hi]
  refine ⟨fun hsome => ?_, fun hnone => ?_, List.pairwise_map.2⟩
  · rw [onTimeout, if_neg (by simp [hsome]), resendEach_eq, State.restartTimer_actions]
    rfl
  · rw [onTimeout, if_pos (by simp [hnone])]
    rfl

/-! ### The Receive State -/

/-- R130: from `s` to `t` neither the Receive State nor the parameters, the input or the result was written,
and nothing was delivered. -/
structure LeavesReceiver (s t : State) : Prop where
  expectedSeq : t.expectedSeq = s.expectedSeq
  lastAckSent : t.lastAckSent = s.lastAckSent
  params : t.params = s.params
  input : t.input = s.input
  result : t.result = s.result
  delivered : delivered t.actions = delivered s.actions

theorem LeavesReceiver.refl (s : State) : LeavesReceiver s s := ⟨rfl, rfl, rfl, rfl, rfl, rfl⟩

theorem LeavesReceiver.trans {s t u : State} (h : LeavesReceiver s t) (h' : LeavesReceiver t u) :
    LeavesReceiver s u :=
  ⟨h'.expectedSeq.trans h.expectedSeq, h'.lastAckSent.trans h.lastAckSent, h'.params.trans h.params,
    h'.input.trans h.input, h'.result.trans h.result, h'.delivered.trans h.delivered⟩

/-- R133: a transmission is no delivery. -/
theorem sendNew_leavesReceiver {p : Bytes} {s t : State} (h : sendNew p s = .next t) : LeavesReceiver s t := by
  obtain ⟨-, rfl⟩ := sendNew_next h
  exact ⟨rfl, rfl, rfl, rfl, rfl, delivered_append_of_nil rfl _⟩

theorem submit_leavesReceiver {p : Bytes} {s t : State} (h : submit p s = .next t) : LeavesReceiver s t := by
  rcases submit_next h with ⟨hfree, -, -, ht⟩ | ⟨-, -, rfl⟩
  · have hdelivered := (submit_sends hfree h).delivered
    rw [startIfOnly_eq] at ht
    subst ht
    exact ⟨rfl, rfl, rfl, rfl, rfl, hdelivered⟩
  · exact ⟨rfl, rfl, rfl, rfl, rfl, rfl⟩

theorem drain_leavesReceiver {s t : State} (h : drain s = .next t) : LeavesReceiver s t :=
  (drain_induction (fun _ _ _ hu hsend => hu.trans ⟨rfl, rfl, rfl, rfl, rfl, hsend.delivered⟩) h (.refl s)).1

/-- R135: removals and restarts are timer actions. -/
theorem onAck_leavesReceiver {n : I32} {s t : State} (h : onAck n s = .next t) : LeavesReceiver s t := by
  rcases onAck_next h with ⟨-, u, hu, rfl⟩ | ⟨hle, rfl⟩
  · have hbefore : LeavesReceiver s (beforeDrain n s) := by
      rw [beforeDrain_eq]
      refine ⟨rfl, rfl, rfl, rfl, rfl, ?_⟩
      rw [delivered_append_of_nil (by split <;> rfl), delivered_append_of_nil (delivered_stops _)]
    have hafter : LeavesReceiver u ((restartIfInFlight u).setStatus .ok) := by
      rw [restartIfInFlight_eq]
      exact ⟨rfl, rfl, rfl, rfl, rfl, delivered_append_of_nil (by split <;> rfl) _⟩
    exact (hbefore.trans (drain_leavesReceiver hu)).trans hafter
  · rw [ackedKeys_of_stale hle]
    exact ⟨rfl, rfl, rfl, rfl, rfl, rfl⟩

theorem onTimeout_leavesReceiver {s t : State} (h : onTimeout s = .next t) : LeavesReceiver s t := by
  rcases onTimeout_next h with ⟨-, rfl⟩ | ⟨-, rfl⟩
  · exact ⟨rfl, rfl, rfl, rfl, rfl, delivered_append_of_nil rfl _⟩
  · refine ⟨rfl, rfl, rfl, rfl, rfl, ?_⟩
    rw [State.setStatus_actions, State.restartTimer_actions, delivered_append_of_nil (delivered_transmissions _),
      delivered_append_of_nil rfl]

/-- Settles O21: each operation of the Send Engine emits transmissions and timer actions only. -/
theorem sendEngineLeavesReceiverAlone : Obligations.SendEngineLeavesReceiverAlone := by
  intro i s t hi h
  suffices hleaves : LeavesReceiver s t by
    obtain ⟨hexp, hack, hparams, hinput, hresult, hdelivered⟩ := hleaves
    exact ⟨hexp, hack, hparams, hinput, hresult, hdelivered⟩
  rcases hi with ⟨p, rfl | rfl | rfl⟩ | rfl | ⟨n, hack⟩ | htimeout
  · exact submit_leavesReceiver h
  · exact submit_leavesReceiver (execAppSend_next h).2
  · exact sendNew_leavesReceiver h
  · exact drain_leavesReceiver h
  · exact onAck_leavesReceiver (exec_of_receivesAck hack s ▸ h)
  · exact onTimeout_leavesReceiver (exec_eq_onTimeout htimeout s ▸ h)

end Sys2Proof.Machine
end

section
/-! Proofs for spec/42_receive_engine.md: what ON_DATA and ON_CORRUPTION answer, that the sender's state has no
part in it, and the single transmission for each string that is no verified acknowledgment. -/

namespace Sys2Proof.Machine

/-! ### ON_DATA -/

/-- R161: the expected packet, below the last sequence number. -/
theorem onData_of_expected {p : Packet} {s : State} (hseq : p.seq = s.expectedSeq)
    (hlt : s.expectedSeq.toInt < 2147483647) :
    onData p s = .next { s with
      expectedSeq := s.expectedSeq + 1
      lastAckSent := ackFrame s.expectedSeq
      actions := s.actions ++ [.deliver p.payload, .tx (ackFrame s.expectedSeq)]
      statuses := s.statuses ++ [.ok] } := by
  simp [onData, acceptData, hseq, incSeq_of_lt hlt, State.emit, State.setStatus]

/-- R161, R37: the expected packet at the last sequence number. -/
theorem onData_of_expected_max {p : Packet} {s : State} (hseq : p.seq = s.expectedSeq)
    (hmax : s.expectedSeq.toInt = 2147483647) : onData p s = .fault .seqOverflow := by
  simp [onData, acceptData, hseq, incSeq_of_max hmax]

/-- R162: any other packet. -/
theorem onData_of_unexpected {p : Packet} {s : State} (hseq : p.seq ≠ s.expectedSeq) :
    onData p s = .next (s.resendLastAck.setStatus .ok) :=
  if_neg hseq

/-- Settles O22: whatever form the packet arrives in, it is ON_DATA that runs, and the last number tells its
two answers apart. -/
theorem expectedDataIsDeliveredAndAcknowledged : Obligations.ExpectedDataIsDeliveredAndAcknowledged := by
  intro i p s hdata hseq
  rw [exec_of_receivesData hdata]
  exact ⟨onData_of_expected hseq, onData_of_expected_max hseq⟩

/-- Settles O23: ON_DATA of a packet that is not the expected one only transmits the stored frame. -/
theorem unexpectedDataResendsLastAck : Obligations.UnexpectedDataResendsLastAck := by
  intro i p s hdata hseq
  rw [exec_of_receivesData hdata]
  exact onData_of_unexpected hseq

/-! ### ON_CORRUPTION -/

/-- Settles O24: whatever form the corrupt frame arrives in, it is ON_CORRUPTION of its kind that runs. -/
theorem corruptionResendsLastAck : Obligations.CorruptionResendsLastAck := by
  intro i k s hcorrupt
  rw [exec_of_receivesCorruption hcorrupt]
  cases k <;> rfl

/-! ### The sender's state -/

/-- Settles O25: each answer of the receiver is written in terms of `expected_seq` and `last_ack_sent` alone, so
a state that agrees on the two takes the same branch with the same actions. -/
theorem receiverIgnoresSendState : Obligations.ReceiverIgnoresSendState := by
  rintro i s s' t (⟨p, hdata⟩ | ⟨k, hcorrupt⟩) hexp hack h
  · rw [exec_of_receivesData hdata] at h ⊢
    rcases onData_next h with ⟨hseq, hlt, rfl⟩ | ⟨hseq, rfl⟩
    · rw [hexp] at hseq hlt ⊢
      exact ⟨_, _, onData_of_expected hseq hlt, rfl, rfl, rfl, rfl, rfl, rfl⟩
    · rw [hexp] at hseq
      refine ⟨_, [.tx s.lastAckSent], onData_of_unexpected hseq, rfl, ?_, rfl, hexp.symm, hack.symm, rfl⟩
      rw [hack]; rfl
  · rw [exec_of_receivesCorruption hcorrupt] at h ⊢
    obtain rfl := Host.Outcome.next.inj h
    refine ⟨_, [.tx s.lastAckSent], rfl, rfl, ?_, rfl, hexp.symm, hack.symm, rfl⟩
    rw [hack]; rfl

/-! ### One transmission -/

/-- R164: from `s` to `t` the actions `new` were emitted: one transmission, and at most one delivery, with which
`expected_seq` keeps step. -/
structure AnswersOnce (s t : State) (new : List Action) : Prop where
  actions : t.actions = s.actions ++ new
  oneTransmission : (transmitted new).length = 1
  atMostOneDelivery : (delivered new).length ≤ 1
  expectedSeq : t.expectedSeq.toInt = s.expectedSeq.toInt + (delivered new).length

/-- R162, R163: the stored acknowledgment alone. -/
theorem resendLastAck_answersOnce (s : State) (st : Status) :
    AnswersOnce s (s.resendLastAck.setStatus st) [.tx s.lastAckSent] :=
  ⟨rfl, rfl, Nat.zero_le 1, (Int.add_zero _).symm⟩

/-- R161, R162: a delivery and a fresh acknowledgment, or the stored one. -/
theorem onData_answersOnce {p : Packet} {s t : State} (h : onData p s = .next t) : ∃ new, AnswersOnce s t new := by
  rcases onData_next h with ⟨-, hlt, rfl⟩ | ⟨-, rfl⟩
  · exact ⟨[.deliver p.payload, .tx (ackFrame s.expectedSeq)], rfl, rfl, le_rfl, toInt_add_one hlt⟩
  · exact ⟨_, resendLastAck_answersOnce s .ok⟩

/-- R172: a string that is no verified acknowledgment goes to the receiver. -/
theorem receive_answersOnce {raw : Bytes} {s t : State}
    (hdata : ∀ p, decodeFrame raw = .ok p → p.ackFlag = false) (h : receive raw s = .next t) :
    ∃ new, AnswersOnce s t new := by
  rcases receive_next h with ⟨k, -, rfl⟩ | ⟨p, hp, hflag, -⟩ | ⟨p, -, -, hrun⟩
  · exact ⟨_, resendLastAck_answersOnce s (statusOf k)⟩
  · simp [hdata p hp] at hflag
  · exact onData_answersOnce hrun

/-- Settles O26: what the receiver emits for the string stands after what was emitted before. -/
theorem oneTransmissionPerNonAckFrame : Obligations.OneTransmissionPerNonAckFrame := by
  intro raw s t hdata h
  obtain ⟨new, hactions, htx, hdeliver, hexp⟩ := receive_answersOnce hdata h
  rw [hactions, transmitted_append, delivered_append, List.length_append, List.length_append]
  omega

end Sys2Proof.Machine
end

section
/-! Proofs for spec/43_dispatch.md: the transaction a step runs, the routes of NET_RECV, the reserved codes, the
output actions, and the reference list of ON_ACK against the shortest list with its effect. -/

namespace Sys2Proof.Machine

/-! ### The transaction a step runs -/

/-- R170: a transaction at the front that is not held is taken. -/
theorem takeTransaction_of_not_holds {s : State} {u : Transaction} {rest : List Transaction}
    (hinput : s.input = u :: rest) (hfree : s.holds u = false) : s.takeTransaction = some (u, rest) := by
  simp [State.takeTransaction, hinput, hfree]

/-- R24: an empty input has nothing to take. -/
theorem takeTransaction_of_empty {s : State} (hinput : s.input = []) : s.takeTransaction = none := by
  simp [State.takeTransaction, hinput]

/-- Settles O31: a step runs what it takes, which is the front of the input unless that is held. -/
theorem stepRunsDecodedTransaction : Obligations.StepRunsDecodedTransaction :=
  ⟨fun _ _ _ _ => step_of_take, fun _ _ _ => takeTransaction_of_not_holds,
    fun _ hinput => step_of_take_none (takeTransaction_of_empty hinput)⟩

/-- R82: a command transaction is an APP_SEND by its code alone. -/
theorem isAppSend_command_of_ne {c : Byte} {operand : Bytes} (hcode : c ≠ 0x01#8) :
    isAppSend (.command (c :: operand)) = false :=
  beq_eq_false_iff_ne.2 hcode

/-- Settles O30: a reserved code is no APP_SEND, so its transaction is not held but taken, and runs CMD.RESERVED. -/
theorem reservedCommandIsRefused : Obligations.ReservedCommandIsRefused := by
  intro c operand rest s hsend hrecv hfire hinput
  have hdec := decodeCommand_reserved c operand hsend hrecv hfire
  have hfree : s.holds (.command (c :: operand)) = false :=
    holds_eq_false_of_not_appSend (isAppSend_command_of_ne hsend)
  exact ⟨hdec, rfl, step_of_take (takeTransaction_of_not_holds hinput hfree) hdec⟩

/-! ### The routes of NET_RECV -/

/-- Settles O27: DECODE rejects the string, reads an acknowledgment, or reads data. -/
theorem netRecvRoutesByDecodeResult : Obligations.NetRecvRoutesByDecodeResult := by
  intro raw s
  refine ⟨fun k hk => ?_, fun p hp hflag => ?_, fun p hp hflag => ?_⟩
  · exact exec_of_receivesCorruption (.inr ⟨raw, rfl, hk⟩) s
  · exact exec_of_receivesAck (.inr ⟨raw, p, rfl, hp, hflag, rfl⟩) s
  · exact exec_of_receivesData (.inr ⟨raw, rfl, hp, hflag⟩) s

/-! ### The output actions -/

/-- Settles O29: each of the four emits its action, and `armedAfter` gives the ghost bit by the action's kind. -/
theorem actionsAppendToOutput : Obligations.ActionsAppendToOutput :=
  fun _ _ => ⟨rfl, rfl, rfl, rfl⟩

/-! ### The reference list of ON_ACK -/

/-- R181: where nothing was delivered, the actions that are not on the timer are the transmissions. -/
theorem nonTimer_of_delivered_nil {l : List Action} (hd : delivered l = []) :
    l.filter (fun a => !a.isTimer) = (transmitted l).map Action.tx := by
  induction l with
  | nil => rfl
  | cons a l ih =>
    cases a with
    | tx f => exact congrArg (Action.tx f :: ·) (ih hd)
    | deliver p => exact nomatch hd
    | timerStart d => exact ih hd
    | timerStop => exact ih hd

/-- R181: the net effect of timer actions that follow transmissions. -/
theorem netTimer_tx_append (frames : List Bytes) (l : List Action) :
    netTimer (frames.map Action.tx ++ l) = netTimer l := by
  induction frames with
  | nil => rfl
  | cons f frames ih => exact ih

/-- R181: a list without deliveries is equivalent to its transmissions followed by timer actions of the same net
effect. -/
theorem actionsEquivalent_transmitted_append {l timer : List Action} (hd : delivered l = [])
    (htimer : ∀ a ∈ timer, a.isTimer = true) (hnet : netTimer l = netTimer timer) :
    actionsEquivalent l ((transmitted l).map Action.tx ++ timer) = true := by
  have htx : ((transmitted l).map Action.tx).filter (fun a => !a.isTimer) = (transmitted l).map Action.tx := by
    simp [Action.isTimer]
  have hrest : timer.filter (fun a => !a.isTimer) = [] := by simpa using htimer
  rw [actionsEquivalent, Bool.and_eq_true, decide_eq_true_iff, decide_eq_true_iff, List.filter_append, htx, hrest,
    List.append_nil, netTimer_tx_append]
  exact ⟨nonTimer_of_delivered_nil hd, hnet⟩

/-- R135: the actions of an acknowledgment hold no delivery. -/
theorem delivered_new_of_onAck {n : I32} {s t : State} {new : List Action} (h : onAck n s = .next t)
    (hactions : t.actions = s.actions ++ new) : delivered new = [] := by
  have hsame := (onAck_leavesReceiver h).delivered
  rwa [hactions, delivered_append, List.append_right_eq_self] at hsame

/-- Settles O18: the timer action at the end of the short list is the net effect R136 gives in each case. -/
theorem ackActionsEquivalentToShortList : Obligations.AckActionsEquivalentToShortList := by
  intro n s t hi h
  obtain ⟨new, hactions, hstale, hrestarted, hstopped, huntouched, -⟩ := ackNetTimerEffectByCase n s t hi h
  have hd := delivered_new_of_onAck h hactions
  refine ⟨new, hactions, hd, actionsEquivalent_transmitted_append hd ?_ ?_⟩
  · split_ifs <;> simp [Action.isTimer]
  · split_ifs with hle hsome hflight
    · rw [hstale hle]
    · exact hrestarted (not_le.1 hle) hsome
    · exact hstopped (not_le.1 hle) (not_not.1 hsome) hflight
    · rw [huntouched (not_le.1 hle) (not_not.1 hsome) (not_not.1 hflight)]

end Sys2Proof.Machine
end

section
/-! Proofs for spec/60_exceptions.md: inside the domain every event completes, and each completed event reports
one status code by R191's table. -/

namespace Sys2Proof.Machine

/-! ### Completion -/

/-- R132, R194: SUBMIT with a number left for the packet, or with room to queue it. -/
theorem submit_completes {p : Bytes} {s : State} (hlt : s.nextSeq.toInt < 2147483647)
    (hfits : p.length ≤ s.params.maxPayload.val) (hroom : s.slotFree = true ∨ s.queueFull = false) :
    ∃ t, submit p s = .next t := by
  cases hfree : s.slotFree with
  | true => exact ⟨_, (submit_of_free hfree hfits).trans (if_pos hlt)⟩
  | false => exact ⟨_, submit_of_full_window hfree (hroom.resolve_left (by simp [hfree]))⟩

/-- R135, R194: DRAIN sends no more than is queued, so with a number left for each queued payload ON_ACK
completes. -/
theorem Inv.onAck_completes {n : I32} {s : State} (hi : Inv s)
    (hnumbers : s.nextSeq.toInt + s.pending.length ≤ 2147483647) : ∃ t, onAck n s = .next t := by
  rcases lt_or_ge s.lastAcked.toInt n.toInt with hlt | hstale
  · have hsent : s.drainable n ≤ s.pending.length := min_le_left _ _
    exact ⟨_, (onAck_eq hlt fun p hp => hi.queuedFit p (List.mem_of_mem_take hp)).trans (if_pos (by omega))⟩
  · exact ⟨_, onAck_of_stale hstale⟩

/-- R161, R162, R194: ON_DATA with a number left to expect. -/
theorem onData_completes {p : Packet} {s : State} (hlt : s.expectedSeq.toInt < 2147483647) :
    ∃ t, onData p s = .next t := by
  by_cases hseq : p.seq = s.expectedSeq
  · exact ⟨_, onData_of_expected hseq hlt⟩
  · exact ⟨_, onData_of_unexpected hseq⟩

/-- R139, R173, R194: TIMER_FIRE completes in every state. -/
theorem timerFire_completes (s : State) : ∃ t, exec .timerFire s = .next t := by
  obtain ⟨hsome, hnone, -⟩ := timeoutResendsWholeWindowInOrder .timerFire s (.inr rfl)
  by_cases hflight : s.inFlight = []
  · exact ⟨_, hnone hflight⟩
  · exact ⟨_, hsome hflight⟩

/-- R172, R194: each route of a received string completes. -/
theorem Inv.netRecv_completes {s : State} (hi : Inv s) (raw : Bytes)
    (hnumbers : s.nextSeq.toInt + s.pending.length ≤ 2147483647) (hexp : s.expectedSeq.toInt < 2147483647) :
    ∃ t, exec (.netRecv raw) s = .next t := by
  obtain ⟨hcorrupt, hack, hdata⟩ := netRecvRoutesByDecodeResult raw s
  cases hdec : decodeFrame raw with
  | error k => exact ⟨_, hcorrupt k hdec⟩
  | ok p =>
    cases hflag : p.ackFlag with
    | true => exact hack p hdec hflag ▸ hi.onAck_completes hnumbers
    | false => exact hdata p hdec hflag ▸ onData_completes hexp

/-- Settles O47: each of the three events completes, and an event that completes keeps the invariant. -/
theorem eventsCompleteInsideDomain : Obligations.EventsCompleteInsideDomain := by
  rintro s i hi hnumbers hexp (⟨raw, rfl⟩ | rfl | ⟨p, rfl, hfits, hroom⟩)
  · obtain ⟨t, h⟩ := hi.netRecv_completes raw hnumbers.le hexp
    exact ⟨t, h, receive_inv hi h⟩
  · obtain ⟨t, h⟩ := timerFire_completes s
    exact ⟨t, h, onTimeout_inv hi h⟩
  · obtain ⟨t, h⟩ := submit_completes (by omega) hfits hroom
    exact ⟨t, (exec_eq_submit (.inr rfl) hfits).trans h, submit_inv hi hfits h⟩

/-! ### The failures of DECODE -/

/-- R191: the condition of `CORRUPT_TRUNCATED`. -/
theorem decodeFrame_truncated_iff (raw : Bytes) : decodeFrame raw = .error .truncated ↔ raw.length < 15 := by
  rcases decodeFrame_cases raw with ⟨hlen, h⟩ | ⟨hlen, -, h⟩ | ⟨hlen, -, -, h⟩ | ⟨hlen, -, -, p, h⟩ <;>
    simp [h, hlen]

/-- R191: the condition of `CORRUPT_CHECKSUM`. -/
theorem decodeFrame_checksum_iff (raw : Bytes) :
    decodeFrame raw = .error .checksum ↔ 15 ≤ raw.length ∧ checksum raw ≠ 0x0000#16 := by
  rcases decodeFrame_cases raw with ⟨hlen, h⟩ | ⟨hlen, hsum, h⟩ | ⟨-, hsum, -, h⟩ | ⟨-, hsum, -, p, h⟩
  · simp [h, hlen]
  · simp [h, hlen, hsum]
  · simp [h, hsum]
  · simp [h, hsum]

/-- R191: the condition of `CORRUPT_LENGTH`. -/
theorem decodeFrame_length_iff (raw : Bytes) :
    decodeFrame raw = .error .length ↔ 15 ≤ raw.length ∧ checksum raw = 0x0000#16 ∧
      ((s32be (slice raw 11 15)).toInt < 0 ∨ (raw.length : Int) ≠ 15 + (s32be (slice raw 11 15)).toInt) := by
  rcases decodeFrame_cases raw with ⟨hlen, h⟩ | ⟨-, hsum, h⟩ | ⟨hlen, hsum, hfield, h⟩ | ⟨-, -, hfield, p, h⟩
  · simp [h, hlen]
  · simp [h, hsum]
  · simp only [h, hlen, hsum, hfield, and_self]
  · simp only [h, hfield, and_false, reduceCtorEq]

/-! ### The status of an event -/

/-- R83, R191: different statuses have different codes. -/
theorem Status.code_inj (st st' : Status) : st.code = st'.code ↔ st = st' := by
  rw [← Status.ofCode_eq_some_iff, Status.ofCode_code, Option.some_inj, eq_comm]

/-- R191, R192: the status of a received string, in a state with this `last_acked`. -/
def receivedStatus (lastAcked : I32) (raw : Bytes) : Status :=
  match decodeFrame raw with
  | .error k => statusOf k
  | .ok p => if p.ackFlag = true ∧ p.ack.toInt ≤ lastAcked.toInt then .staleAck else .ok

theorem receivedStatus_of_error {lastAcked : I32} {raw : Bytes} {k : CorruptionKind}
    (h : decodeFrame raw = .error k) : receivedStatus lastAcked raw = statusOf k := by
  simp only [receivedStatus, h]

theorem receivedStatus_of_ok {lastAcked : I32} {raw : Bytes} {p : Packet} (h : decodeFrame raw = .ok p) :
    receivedStatus lastAcked raw =
      if p.ackFlag = true ∧ p.ack.toInt ≤ lastAcked.toInt then .staleAck else .ok := by
  simp only [receivedStatus, h]

/-- R191: a corruption status is reported exactly for its failure of DECODE. -/
theorem receivedStatus_eq_statusOf_iff (lastAcked : I32) (raw : Bytes) (k : CorruptionKind) :
    receivedStatus lastAcked raw = statusOf k ↔ decodeFrame raw = .error k := by
  cases h : decodeFrame raw with
  | error k' =>
    rw [receivedStatus_of_error h]
    cases k <;> cases k' <;> simp [statusOf]
  | ok p =>
    rw [receivedStatus_of_ok h]
    split <;> cases k <;> simp [statusOf]

/-- R191: `STALE_ACK` is reported exactly for a verified acknowledgment that does not advance the window. -/
theorem receivedStatus_eq_staleAck_iff (lastAcked : I32) (raw : Bytes) :
    receivedStatus lastAcked raw = .staleAck ↔
      ∃ p, decodeFrame raw = .ok p ∧ p.ackFlag = true ∧ p.ack.toInt ≤ lastAcked.toInt := by
  cases h : decodeFrame raw with
  | error k =>
    rw [receivedStatus_of_error h]
    cases k <;> simp [statusOf]
  | ok p =>
    rw [receivedStatus_of_ok h]
    simp

/-- R172, R191: each route of a received string reports that string's status. -/
theorem receive_statuses {raw : Bytes} {s t : State} (h : receive raw s = .next t) :
    t.statuses = s.statuses ++ [receivedStatus s.lastAcked raw] := by
  rcases receive_next h with ⟨k, hk, rfl⟩ | ⟨p, hp, hflag, hack⟩ | ⟨p, hp, hflag, hdata⟩
  · rw [receivedStatus_of_error hk, State.absorbCorruption_statuses]
  · rw [receivedStatus_of_ok hp, onAck_statuses hack]
    simp [hflag]
  · rw [receivedStatus_of_ok hp, onData_statuses hdata]
    simp [hflag]

/-- R82: a command that decodes to an instruction is that instruction's encoding. -/
theorem encode_of_decodeCommand {b : Bytes} {i : Instr} (h : decodeCommand b = .ok i) :
    encode i = some (.command, b) :=
  (encodeInvertsDecode i .command b h).2

/-- R170, R191: a completed command reports one status: a received string its own, and any other event `OK`. -/
theorem step_statuses {s t : State} {b : Bytes} {rest : List Transaction}
    (htake : s.takeTransaction = some (.command b, rest)) (h : step s = .next t) :
    (∃ raw, b = 0x02#8 :: raw ∧ t.statuses = s.statuses ++ [receivedStatus s.lastAcked raw]) ∨
      ((∀ raw, b ≠ 0x02#8 :: raw) ∧ t.statuses = s.statuses ++ [.ok]) := by
  rcases step_next h with ⟨hnone, -⟩ | ⟨u, others, hu, hrun⟩
  · simp [htake] at hnone
  obtain ⟨rfl, rfl⟩ : Transaction.command b = u ∧ rest = others := by simpa [htake] using hu
  rcases hrun with ⟨p, hdec, happ⟩ | ⟨raw, hdec, hrecv⟩ | ⟨hdec, htimeout⟩ | ⟨p, hreset, -, -⟩
  · obtain rfl : 0x01#8 :: p = b := by simpa [encode, appSendCode] using encode_of_decodeCommand hdec
    exact .inr ⟨by simp, submit_statuses (s := { s with input := rest }) (execAppSend_next happ).2⟩
  · obtain rfl : 0x02#8 :: raw = b := by simpa [encode, netRecvCode] using encode_of_decodeCommand hdec
    exact .inl ⟨raw, rfl, receive_statuses (s := { s with input := rest }) hrecv⟩
  · obtain rfl : [0x03#8] = b := by simpa [encode, timerFireCode] using encode_of_decodeCommand hdec
    exact .inr ⟨by simp, onTimeout_statuses (s := { s with input := rest }) htimeout⟩
  · cases hreset

/-- R83, R191: one status more is one code more on the status output. -/
theorem statusOutput_of_statuses {s t : State} {st : Status} (h : t.statuses = s.statuses ++ [st]) :
    t.statusOutput = s.statusOutput ++ [st.code] := by
  simp [State.statusOutput, h]

theorem Status.code_cases (st : Status) :
    st.code = 0x00#8 ∨ st.code = 0x01#8 ∨ st.code = 0x10#8 ∨ st.code = 0x11#8 ∨ st.code = 0x12#8 := by
  cases st <;> decide

/-- Settles O50: the code is that of the event's status, and different statuses have different codes; an event
that receives nothing reports `OK`, which is none of the four. -/
theorem everyEventReportsOneStatusCode : Obligations.EveryEventReportsOneStatusCode := by
  intro s t b rest htake h
  rcases step_statuses htake h with ⟨raw, rfl, hst⟩ | ⟨hother, hst⟩
  · have hkind := fun k => (Status.code_inj _ _).trans (receivedStatus_eq_statusOf_iff s.lastAcked raw k)
    refine ⟨_, statusOutput_of_statuses hst, Status.code_cases _, ?_, ?_, ?_, ?_⟩ <;>
      simp only [List.cons.injEq, true_and, exists_and_left, exists_eq_left']
    · exact (Status.code_inj _ .staleAck).trans (receivedStatus_eq_staleAck_iff s.lastAcked raw)
    · exact (hkind .truncated).trans (decodeFrame_truncated_iff raw)
    · exact (hkind .checksum).trans (decodeFrame_checksum_iff raw)
    · exact (hkind .length).trans (decodeFrame_length_iff raw)
  · refine ⟨_, statusOutput_of_statuses hst, Status.code_cases _, ?_, ?_, ?_, ?_⟩ <;>
      simp [hother, Status.code, okCode]

end Sys2Proof.Machine
end

section
/-! Proofs for spec/70_reset_and_hazards.md: construction starts the interface's records anew. -/

namespace Sys2Proof.Machine

/-- R36: construction with nothing left to deliver leaves the reset state, whatever was held before. -/
theorem execReset_of_idle {s : State} (hidle : s.input = []) :
    execReset resetParams s = .next State.reset := by
  have hw : 1 ≤ resetParams.windowSize := by decide
  have hstate : { State.construct resetParams with input := s.input } = State.reset := by
    rw [hidle]
    rfl
  rw [execReset_of_positive hw, hstate]

/-- Settles O35: RESET answers the constructed state, whose records are empty and whose input is the one
there was; with no input that state is `State.reset`. -/
theorem constructionEmitsNothing : Obligations.ConstructionEmitsNothing := by
  constructor
  · intro p s hw
    exact ⟨_, execReset_of_positive hw s, rfl, rfl, rfl, rfl⟩
  · intro s
    exact execReset_of_idle (s := { s with input := [] }) rfl

end Sys2Proof.Machine
end
